-- ==== Sys2Proof/Word.lean ====
section
/-! DEFINITION. The word types of keet_8 CORE (spec/00_scope.md R5, R7). -/

namespace Sys2Proof

/-- An 8-bit value: a general register, a timer, a memory byte, an immediate `kk` (R5 `XLEN`). -/
abbrev Byte := BitVec 8

/-- A 16-bit value: the index register, the program counter, a stack entry, an instruction word
(R5 `ILEN`, `PCLEN`, `INSTR_LEN`). -/
abbrev Word := BitVec 16

/-- A 4-bit field of an instruction word (R11 "Nibble"). -/
abbrev Nibble := BitVec 4

/-- The 12-bit address field `nnn` of an instruction word (R10). -/
abbrev Addr := BitVec 12

/-- The index of a general register, 0 to 15 (R10: "always derived from 4-bit opcode fields, hence
always in 0–15"). -/
abbrev Reg := Fin 16

/-- Register 15, the flag register `VF` (R8, R21). -/
abbrev vf : Reg := 15

/-- Register 0, the implicit source of `JP V0, nnn` (R103). -/
abbrev v0 : Reg := 0

end Sys2Proof
end

