-- ==== Sys2Proof/Config.lean ====
section
/-! DEFINITION. What is fixed for a machine but open in the spec: the parameters of spec/00_scope.md
R6, and the free values. The values themselves (the fixed numbers of R5 and the spec's defaults for
R6) are in Sys2Proof/Machine/Params.lean. -/

namespace Sys2Proof

/-- `DRAW_EDGE_POLICY` (R6, spec/43_display.md R153): what draw does with a pixel beyond the right or
bottom edge. -/
inductive EdgePolicy where
  /-- The pixel goes to column `px mod 64`, row `py mod 32` (the default). -/
  | wrap
  /-- The pixel is dropped: no toggle, no collision. -/
  | clip
  deriving DecidableEq, Repr, Inhabited

/-- `KEY_INDEX_POLICY` (R6, spec/44_keypad.md R163): which key `SKP` and `SKNP` read when the register
holds a value above 15. -/
inductive KeyIndexPolicy where
  /-- The low four bits of the register (the default). -/
  | mask4
  /-- The step has no meaning: a refusal. -/
  | fault
  deriving DecidableEq, Repr, Inhabited

/-- `VF_PRIORITY` (R6, spec/10_state.md R39 (c)): which write lands in register 15 when one of the five
flag-writing arithmetic and shift instructions names it as its destination. -/
inductive VfPriority where
  /-- The flag wins and the result byte is discarded (the default). -/
  | flag
  /-- The result byte wins and the flag is discarded. -/
  | result
  deriving DecidableEq, Repr, Inhabited

/-- `GROUP0_FIELD`, `GROUPE_FIELD` (R6, spec/30_encoding.md R74): the field the decoder tests in the
groups with top nibble 0x0 and 0xE. -/
inductive SecondaryField where
  /-- The low byte (the default of both). -/
  | kk
  /-- The low nibble. -/
  | n
  deriving DecidableEq, Repr, Inhabited

/-- `SE_SNE_REG_LOW_NIBBLE` (R6, spec/30_encoding.md R74): whether `5xyn` and `9xyn` with `n != 0` are
the register-compare skips or the fallback. -/
inductive LowNibblePolicy where
  /-- The low nibble is not tested (the default). -/
  | ignored
  /-- The low nibble must be 0, otherwise the word is the fallback. -/
  | mustBeZero
  deriving DecidableEq, Repr, Inhabited

/-- The open parameters of R6 that are "configuration, constant for a run" (spec/10_state.md R32 (e)).
The other three entries of R6 are inputs: `ROM` is the argument of a reset, `KEYS(t)` is the field
`keys` of State as the host last wrote it, `rand8` is the free value below. -/
structure Config where
  /-- `GLYPH_TABLE`: 16 glyphs of 5 bytes, glyph `d` for the digit `d`, top row first (R58). -/
  glyphTable : Vector (Vector Byte 5) 16
  /-- `DRAW_EDGE_POLICY`. -/
  drawEdge : EdgePolicy
  /-- `KEY_INDEX_POLICY`. -/
  keyIndex : KeyIndexPolicy
  /-- `VF_PRIORITY`. -/
  vfPriority : VfPriority
  /-- `GROUP0_FIELD`. -/
  group0Field : SecondaryField
  /-- `GROUPE_FIELD`. -/
  groupEField : SecondaryField
  /-- `SE_SNE_REG_LOW_NIBBLE`. -/
  regSkipLowNibble : LowNibblePolicy
  deriving DecidableEq, Repr, Inhabited

/-- The random byte of the `k`-th draw: "a free draw, a fresh 8-bit value for each execution under no
law" (spec/42_arithmetic_logic.md R140, spec/60_exceptions.md R197). It has no body, so nothing can
evaluate it; `RND` applies it to the counter of draws that State holds (log 3). -/
opaque Config.rand8 : Nat → Byte

end Sys2Proof
end

