-- ==== Sys2Proof/Machine/Params.lean ====
section
/-! DEFINITION. The fixed parameters of spec/00_scope.md R5, and the defaults the spec decides for the
open parameters of R6. -/

namespace Sys2Proof

/-- `MEM_SIZE`: bytes of memory. -/
abbrev memSize : Nat := 4096

/-- `ROM_BASE`: where the image is copied to, and the reset value of `pc`. -/
abbrev romBase : Nat := 0x0200

/-- `ROM_MAX`: the longest usable image, `4096 - 0x0200`. -/
abbrev romMax : Nat := 3584

/-- `GLYPH_BASE`: the first address of the glyph table. -/
abbrev glyphBase : Nat := 0x0050

/-- `GLYPH_STRIDE`: bytes per glyph. -/
abbrev glyphStride : Nat := 5

/-- `GLYPH_SIZE`: bytes of the glyph table. -/
abbrev glyphSize : Nat := 80

/-- `STACK_CAP`: entries of the call stack. -/
abbrev stackCap : Nat := 32

/-- `DISP_W`: columns of the display grid. -/
abbrev dispW : Nat := 64

/-- `DISP_H`: rows of the display grid. -/
abbrev dispH : Nat := 32

/-- `CELL_UNLIT`. -/
abbrev cellUnlit : Byte := 0x00

/-- `CELL_LIT`. -/
abbrev cellLit : Byte := 0xFF

/-- Glyphs 0 to 7 of the conventional table (spec/20_memory.md R58). -/
def glyphs0to7 : Vector (Vector Byte 5) 8 := #v[
  #v[0xF0, 0x90, 0x90, 0x90, 0xF0],
  #v[0x20, 0x60, 0x20, 0x20, 0x70],
  #v[0xF0, 0x10, 0xF0, 0x80, 0xF0],
  #v[0xF0, 0x10, 0xF0, 0x10, 0xF0],
  #v[0x90, 0x90, 0xF0, 0x10, 0x10],
  #v[0xF0, 0x80, 0xF0, 0x10, 0xF0],
  #v[0xF0, 0x80, 0xF0, 0x90, 0xF0],
  #v[0xF0, 0x10, 0x20, 0x40, 0x40]]

/-- Glyphs 8 to F of the conventional table (R58). -/
def glyphs8toF : Vector (Vector Byte 5) 8 := #v[
  #v[0xF0, 0x90, 0xF0, 0x90, 0xF0],
  #v[0xF0, 0x90, 0xF0, 0x10, 0xF0],
  #v[0xF0, 0x90, 0xF0, 0x90, 0x90],
  #v[0xE0, 0x90, 0xE0, 0x90, 0xE0],
  #v[0xF0, 0x80, 0x80, 0x80, 0xF0],
  #v[0xE0, 0x90, 0x90, 0x90, 0xE0],
  #v[0xF0, 0x80, 0xF0, 0x80, 0xF0],
  #v[0xF0, 0x80, 0xF0, 0x80, 0x80]]

/-- The default `GLYPH_TABLE` of R58. PRESUMED, unsafe (log 7): the spec itself marks these bytes "from
general knowledge, not in source". -/
def conventionalGlyphs : Vector (Vector Byte 5) 16 := glyphs0to7 ++ glyphs8toF

/-- The defaults of R6, one per open parameter. -/
def Config.default : Config where
  glyphTable := conventionalGlyphs
  drawEdge := .wrap
  keyIndex := .mask4
  vfPriority := .flag
  group0Field := .kk
  groupEField := .kk
  regSkipLowNibble := .ignored

end Sys2Proof
end

