-- ==== Sys2Proof/Machine/Fields.lean ====
section
/-! DEFINITION. The fields of an instruction word, taken apart and put together
(spec/30_encoding.md R71, R72). -/

namespace Sys2Proof

/-- `t = (w & 0xF000) >> 12`, the primary group. -/
def fieldT (w : Word) : Nibble := w.extractLsb' 12 4

/-- `x = (w & 0x0F00) >> 8`, as four bits. -/
def fieldXBits (w : Word) : Nibble := w.extractLsb' 8 4

/-- `y = (w & 0x00F0) >> 4`, as four bits. -/
def fieldYBits (w : Word) : Nibble := w.extractLsb' 4 4

/-- `n = w & 0x000F`, the small immediate or secondary opcode. -/
def fieldN (w : Word) : Nibble := w.extractLsb' 0 4

/-- `kk = w & 0x00FF`, the immediate byte or secondary opcode. -/
def fieldKK (w : Word) : Byte := w.extractLsb' 0 8

/-- `nnn = w & 0x0FFF`, the address. -/
def fieldNNN (w : Word) : Addr := w.extractLsb' 0 12

/-- The register a 4-bit field names. -/
def regOfBits (b : Nibble) : Reg := b.toFin

/-- The 4-bit field that names a register. -/
def bitsOfReg (r : Reg) : Nibble := BitVec.ofFin r

/-- `x`, the first register index. -/
def fieldX (w : Word) : Reg := regOfBits (fieldXBits w)

/-- `y`, the second register index. -/
def fieldY (w : Word) : Reg := regOfBits (fieldYBits w)

/-- A word from its four nibbles `t x y n`. -/
def wordTXYN (t x y n : Nibble) : Word := (t ++ x ++ y ++ n : BitVec (4 + 4 + 4 + 4))

/-- A word from `t x kk`. -/
def wordTXKK (t x : Nibble) (kk : Byte) : Word := (t ++ x ++ kk : BitVec (4 + 4 + 8))

/-- A word from `t nnn`. -/
def wordTNNN (t : Nibble) (nnn : Addr) : Word := (t ++ nnn : BitVec (4 + 12))

/-- A word from its two bytes in memory order: the byte at the lower address is the high byte
(spec/20_memory.md R53). -/
def wordOfBytes (hi lo : Byte) : Word := (hi ++ lo : BitVec (8 + 8))

/-- The byte of a word that stands at the lower address. -/
def hiByte (w : Word) : Byte := w.extractLsb' 8 8

/-- The byte of a word that stands at the higher address. -/
def loByte (w : Word) : Byte := w.extractLsb' 0 8

end Sys2Proof
end

