-- ==== Sys2Proof/Syntax.lean ====
section
/-! DEFINITION. The instructions of keet_8 CORE: one constructor per row of spec/opcode_table.json
(spec/30_encoding.md R76), with the payload of its format (R72). -/

namespace Sys2Proof

/-- The 34 recognised instructions and the no-op fallback, in the order of R76. -/
inductive Instr where
  /-- `CLS`, word `0_E0` (R150). -/
  | cls
  /-- `RET`, word `0_EE` (R101). -/
  | ret
  /-- `JP nnn`, word `1nnn` (R102). -/
  | jp (nnn : Addr)
  /-- `CALL nnn`, word `2nnn` (R104). -/
  | call (nnn : Addr)
  /-- `SE Vx, kk`, word `3xkk` (R105). -/
  | seImm (x : Reg) (kk : Byte)
  /-- `SNE Vx, kk`, word `4xkk` (R106). -/
  | sneImm (x : Reg) (kk : Byte)
  /-- `SE Vx, Vy`, word `5xy_` (R107). -/
  | seReg (x y : Reg)
  /-- `LD Vx, kk`, word `6xkk` (R110). -/
  | ldImm (x : Reg) (kk : Byte)
  /-- `ADD Vx, kk`, word `7xkk` (R130). -/
  | addImm (x : Reg) (kk : Byte)
  /-- `LD Vx, Vy`, word `8xy0` (R111). -/
  | ldReg (x y : Reg)
  /-- `OR Vx, Vy`, word `8xy1` (R133). -/
  | orReg (x y : Reg)
  /-- `AND Vx, Vy`, word `8xy2` (R134). -/
  | andReg (x y : Reg)
  /-- `XOR Vx, Vy`, word `8xy3` (R135). -/
  | xorReg (x y : Reg)
  /-- `ADD Vx, Vy`, word `8xy4` (R131). -/
  | addReg (x y : Reg)
  /-- `SUB Vx, Vy`, word `8xy5` (R136). -/
  | subReg (x y : Reg)
  /-- `SHR Vx`, word `8xy6`; the field `y` is in the word and not used by the operation (R138). -/
  | shr (x y : Reg)
  /-- `SUBN Vx, Vy`, word `8xy7` (R137). -/
  | subnReg (x y : Reg)
  /-- `SHL Vx`, word `8xyE`; the field `y` is in the word and not used by the operation (R139). -/
  | shl (x y : Reg)
  /-- `SNE Vx, Vy`, word `9xy_` (R108). -/
  | sneReg (x y : Reg)
  /-- `LD I, nnn`, word `Annn` (R112). -/
  | ldI (nnn : Addr)
  /-- `JP V0, nnn`, word `Bnnn` (R103). -/
  | jpV0 (nnn : Addr)
  /-- `RND Vx, kk`, word `Cxkk` (R140). -/
  | rnd (x : Reg) (kk : Byte)
  /-- `DRW Vx, Vy, n`, word `Dxyn` (R151). -/
  | drw (x y : Reg) (n : Nibble)
  /-- `SKP Vx`, word `Ex9E` (R160). -/
  | skp (x : Reg)
  /-- `SKNP Vx`, word `ExA1` (R161). -/
  | sknp (x : Reg)
  /-- `LD Vx, DT`, word `Fx07` (R114). -/
  | ldVxDT (x : Reg)
  /-- `LD Vx, K`, word `Fx0A` (R162). -/
  | ldVxK (x : Reg)
  /-- `LD DT, Vx`, word `Fx15` (R115). -/
  | ldDTVx (x : Reg)
  /-- `LD ST, Vx`, word `Fx18` (R116). -/
  | ldSTVx (x : Reg)
  /-- `ADD I, Vx`, word `Fx1E` (R132). -/
  | addI (x : Reg)
  /-- `LD F, Vx`, word `Fx29` (R117). -/
  | ldF (x : Reg)
  /-- `LD B, Vx`, word `Fx33` (R119). -/
  | ldB (x : Reg)
  /-- `LD [I], Vx`, word `Fx55` (R120). -/
  | ldMemVx (x : Reg)
  /-- `LD Vx, [I]`, word `Fx65` (R121). -/
  | ldVxMem (x : Reg)
  /-- `NOP`, the fallback of every word no other row matches, carrying that raw word (R170). -/
  | nop (raw : Word)
  deriving DecidableEq, Repr

/-- The row number of R76, 1 to 35. -/
def Instr.row : Instr → Nat
  | .cls => 1
  | .ret => 2
  | .jp _ => 3
  | .call _ => 4
  | .seImm _ _ => 5
  | .sneImm _ _ => 6
  | .seReg _ _ => 7
  | .ldImm _ _ => 8
  | .addImm _ _ => 9
  | .ldReg _ _ => 10
  | .orReg _ _ => 11
  | .andReg _ _ => 12
  | .xorReg _ _ => 13
  | .addReg _ _ => 14
  | .subReg _ _ => 15
  | .shr _ _ => 16
  | .subnReg _ _ => 17
  | .shl _ _ => 18
  | .sneReg _ _ => 19
  | .ldI _ => 20
  | .jpV0 _ => 21
  | .rnd _ _ => 22
  | .drw _ _ _ => 23
  | .skp _ => 24
  | .sknp _ => 25
  | .ldVxDT _ => 26
  | .ldVxK _ => 27
  | .ldDTVx _ => 28
  | .ldSTVx _ => 29
  | .addI _ => 30
  | .ldF _ => 31
  | .ldB _ => 32
  | .ldMemVx _ => 33
  | .ldVxMem _ => 34
  | .nop _ => 35

end Sys2Proof
end

