-- ==== Sys2Proof/WellFormed.lean ====
section
/-! DEFINITION. Well-formed instructions. Register indices, immediates and addresses are bounded by
their types; what is left to check is that a `NOP` carries a word of the fallback space, which
spec/30_encoding.md R77 lists group by group and which the parameters of R74 move. -/

namespace Sys2Proof

/-- The reserved words of R77, under the decoder parameters `c`: in each group with a secondary field,
the words whose field selects no instruction. -/
def isFallback (c : Config) (w : Word) : Bool :=
  match (fieldT w).toNat with
  | 0x0 =>
    match c.group0Field with
    | .kk => !([0xE0, 0xEE].contains (fieldKK w).toNat)
    | .n => !([0x0, 0xE].contains (fieldN w).toNat)
  | 0x5 => c.regSkipLowNibble == .mustBeZero && fieldN w != 0#4
  | 0x8 => [0x8, 0x9, 0xA, 0xB, 0xC, 0xD, 0xF].contains (fieldN w).toNat
  | 0x9 => c.regSkipLowNibble == .mustBeZero && fieldN w != 0#4
  | 0xE =>
    match c.groupEField with
    | .kk => !([0x9E, 0xA1].contains (fieldKK w).toNat)
    | .n => !([0xE, 0x1].contains (fieldN w).toNat)
  | 0xF => !([0x07, 0x0A, 0x15, 0x18, 0x1E, 0x29, 0x33, 0x55, 0x65].contains (fieldKK w).toNat)
  | _ => false

/-- An instruction is well-formed when its `NOP` payload, if it has one, is a reserved word. -/
def Instr.wf (c : Config) : Instr → Bool
  | .nop raw => isFallback c raw
  | .cls | .ret | .jp _ | .call _ | .seImm _ _ | .sneImm _ _ | .seReg _ _ | .ldImm _ _
  | .addImm _ _ | .ldReg _ _ | .orReg _ _ | .andReg _ _ | .xorReg _ _ | .addReg _ _
  | .subReg _ _ | .shr _ _ | .subnReg _ _ | .shl _ _ | .sneReg _ _ | .ldI _ | .jpV0 _
  | .rnd _ _ | .drw _ _ _ | .skp _ | .sknp _ | .ldVxDT _ | .ldVxK _ | .ldDTVx _ | .ldSTVx _
  | .addI _ | .ldF _ | .ldB _ | .ldMemVx _ | .ldVxMem _ => true

end Sys2Proof
end

