-- ==== Sys2Proof/Decode.lean ====
section
/-! DEFINITION. The decoder of spec/30_encoding.md R75, total on every 16-bit word (R78), the encoder
of the same tables, and the opcode map of R76 as rows of mask and pattern. -/

namespace Sys2Proof

/-- Group 0x0: `GROUP0_FIELD` says which field is tested; the `x` nibble never is (R74, R75). -/
def decodeGroup0 (c : Config) (w : Word) : Instr :=
  match c.group0Field with
  | .kk =>
    match (fieldKK w).toNat with
    | 0xE0 => .cls
    | 0xEE => .ret
    | _ => .nop w
  | .n =>
    match (fieldN w).toNat with
    | 0x0 => .cls
    | 0xE => .ret
    | _ => .nop w

/-- A word of group 0x5 or 0x9, `i` its register-compare skip: `SE_SNE_REG_LOW_NIBBLE` says whether a
nonzero low nibble makes it the fallback (R74). -/
def decodeRegSkip (c : Config) (w : Word) (i : Instr) : Instr :=
  match c.regSkipLowNibble with
  | .ignored => i
  | .mustBeZero => if fieldN w = 0#4 then i else .nop w

/-- Group 0x8, selected by the low nibble (R75). -/
def decodeGroup8 (w : Word) : Instr :=
  match (fieldN w).toNat with
  | 0x0 => .ldReg (fieldX w) (fieldY w)
  | 0x1 => .orReg (fieldX w) (fieldY w)
  | 0x2 => .andReg (fieldX w) (fieldY w)
  | 0x3 => .xorReg (fieldX w) (fieldY w)
  | 0x4 => .addReg (fieldX w) (fieldY w)
  | 0x5 => .subReg (fieldX w) (fieldY w)
  | 0x6 => .shr (fieldX w) (fieldY w)
  | 0x7 => .subnReg (fieldX w) (fieldY w)
  | 0xE => .shl (fieldX w) (fieldY w)
  | _ => .nop w

/-- Group 0xE: `GROUPE_FIELD` says which field is tested (R74, R75). -/
def decodeGroupE (c : Config) (w : Word) : Instr :=
  match c.groupEField with
  | .kk =>
    match (fieldKK w).toNat with
    | 0x9E => .skp (fieldX w)
    | 0xA1 => .sknp (fieldX w)
    | _ => .nop w
  | .n =>
    match (fieldN w).toNat with
    | 0xE => .skp (fieldX w)
    | 0x1 => .sknp (fieldX w)
    | _ => .nop w

/-- Group 0xF, selected by the low byte (R75). -/
def decodeGroupF (w : Word) : Instr :=
  match (fieldKK w).toNat with
  | 0x07 => .ldVxDT (fieldX w)
  | 0x0A => .ldVxK (fieldX w)
  | 0x15 => .ldDTVx (fieldX w)
  | 0x18 => .ldSTVx (fieldX w)
  | 0x1E => .addI (fieldX w)
  | 0x29 => .ldF (fieldX w)
  | 0x33 => .ldB (fieldX w)
  | 0x55 => .ldMemVx (fieldX w)
  | 0x65 => .ldVxMem (fieldX w)
  | _ => .nop w

/-- `Decode(w)` of R75: the top nibble selects the primary group. The last arm is never reached, since
a nibble is at most 15. -/
def decode (c : Config) (w : Word) : Instr :=
  match (fieldT w).toNat with
  | 0x0 => decodeGroup0 c w
  | 0x1 => .jp (fieldNNN w)
  | 0x2 => .call (fieldNNN w)
  | 0x3 => .seImm (fieldX w) (fieldKK w)
  | 0x4 => .sneImm (fieldX w) (fieldKK w)
  | 0x5 => decodeRegSkip c w (.seReg (fieldX w) (fieldY w))
  | 0x6 => .ldImm (fieldX w) (fieldKK w)
  | 0x7 => .addImm (fieldX w) (fieldKK w)
  | 0x8 => decodeGroup8 w
  | 0x9 => decodeRegSkip c w (.sneReg (fieldX w) (fieldY w))
  | 0xA => .ldI (fieldNNN w)
  | 0xB => .jpV0 (fieldNNN w)
  | 0xC => .rnd (fieldX w) (fieldKK w)
  | 0xD => .drw (fieldX w) (fieldY w) (fieldN w)
  | 0xE => decodeGroupE c w
  | 0xF => decodeGroupF w
  | _ => .nop w

/-- Why a byte sequence holds no instruction. Words themselves are never rejected (R78). -/
inductive DecodeError where
  /-- Fewer than the two bytes of an instruction (R70). -/
  | truncated
  deriving DecidableEq, Repr

/-- Decoding at the front of a byte sequence: one instruction and the rest, high byte first (R53, R70). -/
def decodeBytes (c : Config) : List Byte → Except DecodeError (Instr × List Byte)
  | hi :: lo :: rest => .ok (decode c (wordOfBytes hi lo), rest)
  | _ => .error .truncated

/-! The encoder, from the same tables of the spec (R72, R76). Bits the decoder ignores take their
canonical value (R80): `00E0`, `00EE`, `5xy0`, `9xy0`. -/

/-- The word of an instruction. -/
def encode : Instr → Word
  | .cls => 0x00E0
  | .ret => 0x00EE
  | .jp nnn => wordTNNN 0x1 nnn
  | .call nnn => wordTNNN 0x2 nnn
  | .seImm x kk => wordTXKK 0x3 (bitsOfReg x) kk
  | .sneImm x kk => wordTXKK 0x4 (bitsOfReg x) kk
  | .seReg x y => wordTXYN 0x5 (bitsOfReg x) (bitsOfReg y) 0x0
  | .ldImm x kk => wordTXKK 0x6 (bitsOfReg x) kk
  | .addImm x kk => wordTXKK 0x7 (bitsOfReg x) kk
  | .ldReg x y => wordTXYN 0x8 (bitsOfReg x) (bitsOfReg y) 0x0
  | .orReg x y => wordTXYN 0x8 (bitsOfReg x) (bitsOfReg y) 0x1
  | .andReg x y => wordTXYN 0x8 (bitsOfReg x) (bitsOfReg y) 0x2
  | .xorReg x y => wordTXYN 0x8 (bitsOfReg x) (bitsOfReg y) 0x3
  | .addReg x y => wordTXYN 0x8 (bitsOfReg x) (bitsOfReg y) 0x4
  | .subReg x y => wordTXYN 0x8 (bitsOfReg x) (bitsOfReg y) 0x5
  | .shr x y => wordTXYN 0x8 (bitsOfReg x) (bitsOfReg y) 0x6
  | .subnReg x y => wordTXYN 0x8 (bitsOfReg x) (bitsOfReg y) 0x7
  | .shl x y => wordTXYN 0x8 (bitsOfReg x) (bitsOfReg y) 0xE
  | .sneReg x y => wordTXYN 0x9 (bitsOfReg x) (bitsOfReg y) 0x0
  | .ldI nnn => wordTNNN 0xA nnn
  | .jpV0 nnn => wordTNNN 0xB nnn
  | .rnd x kk => wordTXKK 0xC (bitsOfReg x) kk
  | .drw x y n => wordTXYN 0xD (bitsOfReg x) (bitsOfReg y) n
  | .skp x => wordTXKK 0xE (bitsOfReg x) 0x9E
  | .sknp x => wordTXKK 0xE (bitsOfReg x) 0xA1
  | .ldVxDT x => wordTXKK 0xF (bitsOfReg x) 0x07
  | .ldVxK x => wordTXKK 0xF (bitsOfReg x) 0x0A
  | .ldDTVx x => wordTXKK 0xF (bitsOfReg x) 0x15
  | .ldSTVx x => wordTXKK 0xF (bitsOfReg x) 0x18
  | .addI x => wordTXKK 0xF (bitsOfReg x) 0x1E
  | .ldF x => wordTXKK 0xF (bitsOfReg x) 0x29
  | .ldB x => wordTXKK 0xF (bitsOfReg x) 0x33
  | .ldMemVx x => wordTXKK 0xF (bitsOfReg x) 0x55
  | .ldVxMem x => wordTXKK 0xF (bitsOfReg x) 0x65
  | .nop raw => raw

/-- The two bytes of an instruction in memory order (R53). -/
def encodeBytes (i : Instr) : List Byte := [hiByte (encode i), loByte (encode i)]

/-! The opcode map of R76. -/

/-- A row of R76: a word `w` selects it when `w & mask = pattern`. -/
structure OpcodeRow where
  row : Nat
  mask : Word
  pattern : Word
  deriving DecidableEq, Repr

/-- Rows 1 to 19 of R76. -/
def opcodeMapLow : List OpcodeRow :=
  [⟨1, 0xF0FF, 0x00E0⟩, ⟨2, 0xF0FF, 0x00EE⟩, ⟨3, 0xF000, 0x1000⟩, ⟨4, 0xF000, 0x2000⟩,
   ⟨5, 0xF000, 0x3000⟩, ⟨6, 0xF000, 0x4000⟩, ⟨7, 0xF000, 0x5000⟩, ⟨8, 0xF000, 0x6000⟩,
   ⟨9, 0xF000, 0x7000⟩, ⟨10, 0xF00F, 0x8000⟩, ⟨11, 0xF00F, 0x8001⟩, ⟨12, 0xF00F, 0x8002⟩,
   ⟨13, 0xF00F, 0x8003⟩, ⟨14, 0xF00F, 0x8004⟩, ⟨15, 0xF00F, 0x8005⟩, ⟨16, 0xF00F, 0x8006⟩,
   ⟨17, 0xF00F, 0x8007⟩, ⟨18, 0xF00F, 0x800E⟩, ⟨19, 0xF000, 0x9000⟩]

/-- Rows 20 to 34 of R76. Row 35, the fallback, has no mask. -/
def opcodeMapHigh : List OpcodeRow :=
  [⟨20, 0xF000, 0xA000⟩, ⟨21, 0xF000, 0xB000⟩, ⟨22, 0xF000, 0xC000⟩, ⟨23, 0xF000, 0xD000⟩,
   ⟨24, 0xF0FF, 0xE09E⟩, ⟨25, 0xF0FF, 0xE0A1⟩, ⟨26, 0xF0FF, 0xF007⟩, ⟨27, 0xF0FF, 0xF00A⟩,
   ⟨28, 0xF0FF, 0xF015⟩, ⟨29, 0xF0FF, 0xF018⟩, ⟨30, 0xF0FF, 0xF01E⟩, ⟨31, 0xF0FF, 0xF029⟩,
   ⟨32, 0xF0FF, 0xF033⟩, ⟨33, 0xF0FF, 0xF055⟩, ⟨34, 0xF0FF, 0xF065⟩]

/-- The 34 rows of R76 that have a mask and a pattern. -/
def opcodeMap : List OpcodeRow := opcodeMapLow ++ opcodeMapHigh

/-- Whether a word selects a row. -/
def OpcodeRow.selects (r : OpcodeRow) (w : Word) : Bool := w &&& r.mask == r.pattern

/-! The words of spec/opcode_table.json as the host numbers them. -/

/-- The instruction word whose bits are `w`, of which the table gives `nbits`: an instruction is one
16-bit word (R70), so bit 0 is its bit 0 and every bit from `nbits` on is 0. -/
def tableWord (nbits w : Nat) : Word := BitVec.ofNat 16 (w % 2 ^ nbits)

/-- What the decoder reads, under the spec's default parameters, from the bytes of a table word laid
out high byte first (R53). -/
def decodeTableWord (nbits w : Nat) : Option Instr :=
  match decodeBytes Config.default [hiByte (tableWord nbits w), loByte (tableWord nbits w)] with
  | .ok (i, _) => some i
  | .error _ => none

end Sys2Proof
end

