-- ==== Sys2Proof/Machine/State.lean ====
section
/-! DEFINITION. The state of keet_8 CORE (spec/10_state.md R20 to R33) as plain data, the reasons a
step can stop, and the state after reset (R36). -/

namespace Sys2Proof.Machine

/-- The error kinds of `ERR` (R33, spec/60_exceptions.md R188). -/
inductive ErrorCode where
  /-- No error. -/
  | none
  /-- A reset whose image cannot be loaded (R181). -/
  | romLoad
  /-- `CALL` with 32 pending calls (R182). -/
  | callStackFull
  /-- `RET` with no pending call (R183). -/
  | callStackEmpty
  /-- Unreachable (R184): every handler receives the payload of its row. -/
  | invalidAddressingMode
  deriving DecidableEq, Repr, Inhabited

/-- The display grid: row `y`, column `x`; a cell is held as whether it is lit (R28, decision D28). -/
abbrev Display := Vector (Vector Bool 64) 32

/-- The state. `cfg` is configuration and never changes (R32 (e), log 1); `draws` is the model's own
(log 3); every other field is architectural. -/
structure State where
  /-- The open parameters of the spec, constant for a run. -/
  cfg : Config
  /-- `V0` to `VF` (R20, R21). -/
  v : Vector Byte 16
  /-- `I`, stored unmasked (R22). -/
  idx : Word
  /-- `pc`, stored unmasked (R23). -/
  pc : Word
  /-- `DT` (R24). -/
  dt : Byte
  /-- `ST` (R25). -/
  st : Byte
  /-- `STK`, the top first (R26, log 4). -/
  stk : List Word
  /-- `KEY[0..15]`, true meaning pressed (R27). -/
  keys : Vector Bool 16
  /-- `DISP` (R28). -/
  disp : Display
  /-- `MEM`, in canonical form (R29, log 2). -/
  mem : List Host.Cell
  /-- `ERR` (R33). -/
  err : ErrorCode
  /-- How many random bytes have been drawn (log 3). -/
  draws : Nat
  deriving DecidableEq, Repr, Inhabited

/-- Why a step could fault in the sense of Host.Outcome. The spec describes what its errors do to the
state (R185), so `CallStackFull` and `CallStackEmpty` are NEXT states with `ERR` set, never this. -/
inductive Fault where
  /-- `InvalidAddressingMode` (R184). Raised by nothing: "no word and no state can raise this error".
  Kept, as R184 allows, as an unreachable constructor. Safe. -/
  | invalidAddressingMode
  deriving DecidableEq, Repr

/-- Why a step has no meaning. -/
inductive Refusal where
  /-- An instruction not modelled yet, raised by its arm of exec. No arm raises it. Safe. -/
  | notModelled (mnemonic : String)
  /-- `SKP` or `SKNP` with a register above 15 under `KEY_INDEX_POLICY = fault`, which R163 calls "a
  step with no meaning (a refusal)"; never under the default `mask4`. Safe. -/
  | keyIndexAbove15
  deriving DecidableEq, Repr

/-- The state after a reset with an empty image, under the parameters `c` (R36, R210): memory lists
nothing, since what an unlisted address reads as is its reset contents (log 2). -/
def State.resetWith (c : Config) : State where
  cfg := c
  v := Vector.replicate 16 0
  idx := 0
  pc := 0x0200
  dt := 0
  st := 0
  stk := []
  keys := Vector.replicate 16 false
  disp := Vector.replicate 32 (Vector.replicate 64 false)
  mem := []
  err := .none
  draws := 0

/-- The machine right after reset, with the spec's default parameters and an empty image. -/
def State.reset : State := State.resetWith Config.default

end Sys2Proof.Machine
end

