-- ==== Sys2Proof/Machine/Ops.lean ====
section
/-! DEFINITION. The named operations over memory, the program counter, the call stack, the display, the
timers and the error status, among them taking an error (spec/60_exceptions.md R185). -/

namespace Sys2Proof.Machine

/-! ## Memory (spec/20_memory.md) -/

/-- What a byte that is not listed reads as: its contents after a reset with an empty image (R57): the
glyph table at 0x0050 to 0x009F and 0 elsewhere. -/
def resetByte (c : Config) (a : Nat) : Byte :=
  if h : 0x0050 ≤ a ∧ a < 0x00A0 then
    (c.glyphTable[(a - 0x0050) / 5]'(by omega))[(a - 0x0050) % 5]'(by omega)
  else 0

namespace Memory

/-- The byte at `a`: the listed one, else what `bg` gives. -/
def read (bg : Nat → Byte) : List Host.Cell → Nat → Byte
  | [], a => bg a
  | (k, b) :: m, a => if k = a then b else read bg m a

/-- The cells of every address but `a`. -/
def erase (m : List Host.Cell) (a : Nat) : List Host.Cell := m.filter fun c => c.1 != a

/-- A cell put before the first cell of a higher address. -/
def insert (a : Nat) (b : Byte) : List Host.Cell → List Host.Cell
  | [] => [(a, b)]
  | (k, v) :: m => if a < k then (a, b) :: (k, v) :: m else (k, v) :: insert a b m

/-- One byte written; a byte equal to what an unlisted address reads as is not listed. -/
def write (bg : Nat → Byte) (m : List Host.Cell) (a : Nat) (b : Byte) : List Host.Cell :=
  if b = bg a then erase m a else insert a b (erase m a)

/-- The canonical form: addresses strictly rising and below 4096, no entry equal to what an unlisted
address reads as. -/
abbrev wf (bg : Nat → Byte) (m : List Host.Cell) : Prop :=
  (m.map Prod.fst).Pairwise (· < ·) ∧ ∀ c ∈ m, c.1 < memSize ∧ c.2 ≠ bg c.1

/-- Any list of cells brought into the canonical form: each cell written, its address within memory. A
list already in that form is left as it is. -/
def canonical (bg : Nat → Byte) (m : List Host.Cell) : List Host.Cell :=
  m.foldr (fun c acc => write bg acc (c.1 % memSize) c.2) []

end Memory

/-- The memory index of a 16-bit address: only its low 12 bits are used (R51). -/
def maskAddr (a : Word) : Nat := (a.setWidth 12).toNat

/-- `MemRead(a, 1)` (spec/00_scope.md R9). -/
def State.readByte (s : State) (a : Word) : Byte := Memory.read (resetByte s.cfg) s.mem (maskAddr a)

/-- `MemWrite(a, 1, b)` (R9). -/
def State.writeByte (s : State) (a : Word) (b : Byte) : State :=
  { s with mem := Memory.write (resetByte s.cfg) s.mem (maskAddr a) b }

/-- Bytes written at rising addresses from `a`, each address formed modulo 65536 and masked by itself
(R51, spec/41_load.md R113). -/
def State.writeBytes (s : State) (a : Word) : List Byte → State
  | [] => s
  | b :: bs => (s.writeByte a b).writeBytes (a + 1#16) bs

/-- The `k` bytes at rising addresses from `a` (R51, R113). -/
def State.readBytes (s : State) (a : Word) : Nat → List Byte
  | 0 => []
  | k + 1 => s.readByte a :: s.readBytes (a + 1#16) k

/-- `MemRead(pc, 2)`: the byte at the lower address is the high byte (R53). -/
def State.fetchWord (s : State) : Word := wordOfBytes (s.readByte s.pc) (s.readByte (s.pc + 1#16))

/-- An instruction word stored where the next step fetches it, and the core not halted (R38's
precondition), so that the step fetches it. -/
def State.placeWord (s : State) (w : Word) : State :=
  { (s.writeByte s.pc (hiByte w)).writeByte (s.pc + 1#16) (loByte w) with err := .none }

/-! ## Program counter (spec/10_state.md R23, R38, R40): all arithmetic modulo 65536 -/

/-- `pc <- target`. -/
def State.setPc (s : State) (target : Word) : State := { s with pc := target }

/-- The fetch advance, `pc <- pc + 2` (R38 (2)). -/
def State.advance (s : State) : State := { s with pc := s.pc + 2#16 }

/-- `skip` when the condition holds (R9). -/
def State.skipIf (s : State) (cond : Bool) : State := if cond then { s with pc := s.pc + 2#16 } else s

/-- The key wait's rewind, `pc <- pc - 2` (spec/44_keypad.md R162). -/
def State.rewind (s : State) : State := { s with pc := s.pc - 2#16 }

/-- `I <- v` (R22). -/
def State.setIdx (s : State) (v : Word) : State := { s with idx := v }

/-! ## Errors (spec/60_exceptions.md) -/

/-- Taking an error (R185): `ERR` takes the code. That every other piece of state keeps the value it had
before the step is settled by `State.endStep`, which drops the rest of the handler's state. There is
no return from an error (R186): only a reset clears `ERR`. -/
def State.raise (s : State) (e : ErrorCode) : State := { s with err := e }

/-! ## Call stack (R26) -/

/-- `depth`. -/
def State.depth (s : State) : Nat := s.stk.length

/-- `push(STK, a)`. -/
def State.push (s : State) (a : Word) : State := { s with stk := a :: s.stk }

/-! ## Timers (R24, R25, R41) -/

/-- `DT <- b`. -/
def State.setDt (s : State) (b : Byte) : State := { s with dt := b }

/-- `ST <- b`. -/
def State.setSt (s : State) (b : Byte) : State := { s with st := b }

/-- One timer ticked: 1 less, never below 0. -/
def tickTimer (b : Byte) : Byte := if b = 0#8 then 0#8 else b - 1#8

/-- The tick of both timers. -/
def State.tick (s : State) : State := { s with dt := tickTimer s.dt, st := tickTimer s.st }

/-- The end of a step that began in `s` and whose handler left `t` (R38 (5), (6), R185): without an
error the timers tick; with one, `ERR` takes the code and everything else is as before the step. -/
def State.endStep (s t : State) : State :=
  if t.err = .none then t.tick else s.raise t.err

/-! ## Display (spec/43_display.md) -/

/-- A place on the grid. -/
structure Pixel where
  x : Fin 64
  y : Fin 32
  deriving DecidableEq, Repr

/-- The grid with no cell lit. -/
def Display.blank : Display := Vector.replicate 32 (Vector.replicate 64 false)

/-- Whether the cell at `p` is lit. -/
def Display.lit (d : Display) (p : Pixel) : Bool := d[p.y][p.x]

/-- The cell at `p` toggled between 0 and 0xFF. -/
def Display.toggle (d : Display) (p : Pixel) : Display :=
  d.set p.y (d[p.y].set p.x (!d[p.y][p.x]))

/-- `Place(px, py)` of R153, under each edge policy. -/
def place (policy : EdgePolicy) (px py : Nat) : Option Pixel :=
  match policy with
  | .wrap => some ⟨⟨px % 64, Nat.mod_lt _ (by omega)⟩, ⟨py % 32, Nat.mod_lt _ (by omega)⟩⟩
  | .clip => if h : px < 64 ∧ py < 32 then some ⟨⟨px, h.1⟩, ⟨py, h.2⟩⟩ else none

/-- The places of the 1-bits of one sprite row: bit 7 is column offset 0 (R152). -/
def rowPixels (policy : EdgePolicy) (x0 y : Nat) (b : Byte) : List Pixel :=
  (List.range 8).filterMap fun c => if b.getLsbD (7 - c) then place policy (x0 + c) y else none

/-- The places of the 1-bits of a sprite, rows downward from `y0` (R151 (3), R152). -/
def spritePixels (policy : EdgePolicy) (x0 y0 : Nat) : List Byte → List Pixel
  | [] => []
  | b :: bs => rowPixels policy x0 y0 b ++ spritePixels policy x0 (y0 + 1) bs

/-- The loop of R151 (3): each pixel in turn sets the collision when its cell is lit and toggles it. -/
def drawPixels (d : Display) (collision : Bool) : List Pixel → Display × Bool
  | [] => (d, collision)
  | p :: ps => drawPixels (d.toggle p) (collision || d.lit p) ps

/-- The grid replaced. -/
def State.setDisp (s : State) (d : Display) : State := { s with disp := d }

/-! ## Random source (R140, R197) -/

/-- `rand8()`: the next draw, a free value (log 3). -/
def State.randomByte (s : State) : Byte := Config.rand8 s.draws

/-- The draw consumed, so that the next one is another. -/
def State.consumeDraw (s : State) : State := { s with draws := s.draws + 1 }

end Sys2Proof.Machine
end

