-- ==== Sys2Proof/Machine/Operands.lean ====
section
/-! DEFINITION. The operands of the instructions: general registers, the register block, the key index,
the glyph address, the decimal digits and the sprite (spec/30_encoding.md R73). -/

namespace Sys2Proof.Machine

/-- `V[r]`. No register is hardwired (spec/10_state.md R20). -/
def State.reg (s : State) (r : Reg) : Byte := s.v[r]

/-- `V[r] <- b`. -/
def State.setReg (s : State) (r : Reg) (b : Byte) : State := { s with v := s.v.set r b }

/-- `zext_16` of an address field (R73). -/
def addrWord (nnn : Addr) : Word := nnn.setWidth 16

/-- `zext_16` of a byte. -/
def byteWord (b : Byte) : Word := b.setWidth 16

/-- The address of byte `k` of a sequence from `I`, before masking (spec/41_load.md R113). -/
def State.effAddr (s : State) (k : Nat) : Word := s.idx + BitVec.ofNat 16 k

/-- `V[0]` to `V[x]`, in order (R120). -/
def State.regBlock (s : State) (x : Reg) : List Byte := s.v.toList.take (x.val + 1)

/-- `V[i] <- MemRead(I + i, 1)` for `i = 0..x`, the registers above `x` unchanged (R121). -/
def State.loadBlock (s : State) (x : Reg) : State :=
  { s with v := Vector.ofFn fun i : Fin 16 => if i ≤ x then s.readByte (s.effAddr i) else s.v[i] }

/-- The three decimal digits of a byte: hundreds, tens, ones (R119). -/
def bcdDigits (b : Byte) : List Byte :=
  [BitVec.ofNat 8 (b.toNat / 100), BitVec.ofNat 8 (b.toNat / 10 % 10), BitVec.ofNat 8 (b.toNat % 10)]

/-- `0x0050 + 5 * zext_16(v)`: the whole byte is multiplied (R117). -/
def glyphAddr (b : Byte) : Word := BitVec.ofNat 16 glyphBase + BitVec.ofNat 16 glyphStride * byteWord b

/-- `KeyIndex(v)` (spec/44_keypad.md R163): none where `KEY_INDEX_POLICY = fault` gives the step no
meaning. -/
def keyIndex (policy : KeyIndexPolicy) (b : Byte) : Option (Fin 16) :=
  match policy with
  | .mask4 => some ⟨b.toNat % 16, Nat.mod_lt _ (by omega)⟩
  | .fault => if h : b.toNat < 16 then some ⟨b.toNat, h⟩ else none

/-- `KEY[k]`. -/
def State.key (s : State) (k : Fin 16) : Bool := s.keys[k]

/-- The sixteen key indices, lowest first. -/
def allKeys : List (Fin 16) := [0, 1, 2, 3, 4, 5, 6, 7, 8, 9, 10, 11, 12, 13, 14, 15]

/-- `min { k : KEY[k] }`, none when no key is pressed (R162). -/
def State.lowestKey (s : State) : Option (Fin 16) := allKeys.find? fun k => s.key k

/-- The places of the sprite that `DRW Vx, Vy, n` draws: the origin is reduced modulo the grid, the rows
are read from `I` (spec/43_display.md R151 (1), (3)). -/
def State.sprite (s : State) (x y : Reg) (n : Nibble) : List Pixel :=
  spritePixels s.cfg.drawEdge ((s.reg x).toNat % dispW) ((s.reg y).toNat % dispH)
    (s.readBytes s.idx n.toNat)

end Sys2Proof.Machine
end

