-- ==== Sys2Proof/Machine/Flags.lean ====
section
/-! DEFINITION. The flag computations (spec/10_state.md R21) and the write of a result together with its
flag (R39 (c)). -/

namespace Sys2Proof.Machine

/-- A flag as the byte 0 or 1 (R21: "never any other value"). -/
def flagByte (b : Bool) : Byte := if b then 1 else 0

/-- Carry of `a + b`: the unsigned sum exceeds 255 (spec/42_arithmetic_logic.md R131). -/
def carryFlag (a b : Byte) : Bool := a.toNat + b.toNat > 255

/-- The strict unsigned comparison of the two subtractions (R136, R137). -/
def greaterFlag (a b : Byte) : Bool := a.toNat > b.toNat

/-- The bit a right shift shifts out (R138). -/
def lowBit (a : Byte) : Bool := a.getLsbD 0

/-- The bit a left shift shifts out (R139). -/
def highBit (a : Byte) : Bool := a.getLsbD 7

/-- `V[x] <- res` and `VF <- flag` committed together. When `x = 15` both target `VF`, and
`VF_PRIORITY` says which one is the last to land (R39 (c)). -/
def State.writeResult (s : State) (x : Reg) (res : Byte) (flag : Bool) : State :=
  match s.cfg.vfPriority with
  | .flag => (s.setReg x res).setReg vf (flagByte flag)
  | .result => (s.setReg vf (flagByte flag)).setReg x res

end Sys2Proof.Machine
end

