-- ==== Sys2Proof/Machine/Arith.lean ====
section
/-! DEFINITION. Arithmetic, logic, shift and random (spec/42_arithmetic_logic.md). All arithmetic is
unsigned and wraps (R141); operands are the values before the instruction (spec/10_state.md R39). -/

namespace Sys2Proof.Machine

/-- `ADD Vx, kk` (R130): wrapping, no flag. -/
def execAddImm (x : Reg) (kk : Byte) (s : State) : Host.Outcome State Fault Refusal :=
  .next (s.setReg x (s.reg x + kk))

/-- `ADD Vx, Vy` (R131): `VF` is the carry. -/
def execAddReg (x y : Reg) (s : State) : Host.Outcome State Fault Refusal :=
  .next (s.writeResult x (s.reg x + s.reg y) (carryFlag (s.reg x) (s.reg y)))

/-- `ADD I, Vx` (R132): modulo 65536, no flag. -/
def execAddI (x : Reg) (s : State) : Host.Outcome State Fault Refusal :=
  .next (s.setIdx (s.idx + byteWord (s.reg x)))

/-- `OR Vx, Vy` (R133): no flag. -/
def execOrReg (x y : Reg) (s : State) : Host.Outcome State Fault Refusal :=
  .next (s.setReg x (s.reg x ||| s.reg y))

/-- `AND Vx, Vy` (R134): no flag. -/
def execAndReg (x y : Reg) (s : State) : Host.Outcome State Fault Refusal :=
  .next (s.setReg x (s.reg x &&& s.reg y))

/-- `XOR Vx, Vy` (R135): no flag. -/
def execXorReg (x y : Reg) (s : State) : Host.Outcome State Fault Refusal :=
  .next (s.setReg x (s.reg x ^^^ s.reg y))

/-- `SUB Vx, Vy` (R136): `VF` is 1 when `Vx > Vy`, strictly. -/
def execSubReg (x y : Reg) (s : State) : Host.Outcome State Fault Refusal :=
  .next (s.writeResult x (s.reg x - s.reg y) (greaterFlag (s.reg x) (s.reg y)))

/-- `SUBN Vx, Vy` (R137): `VF` is 1 when `Vy > Vx`, strictly. -/
def execSubnReg (x y : Reg) (s : State) : Host.Outcome State Fault Refusal :=
  .next (s.writeResult x (s.reg y - s.reg x) (greaterFlag (s.reg y) (s.reg x)))

/-- `SHR Vx` (R138): logical, by one; `VF` is the old bit 0. The `y` field is not used. -/
def execShr (x : Reg) (s : State) : Host.Outcome State Fault Refusal :=
  .next (s.writeResult x (s.reg x >>> 1) (lowBit (s.reg x)))

/-- `SHL Vx` (R139): by one, truncated; `VF` is the old bit 7. The `y` field is not used. -/
def execShl (x : Reg) (s : State) : Host.Outcome State Fault Refusal :=
  .next (s.writeResult x (s.reg x <<< 1) (highBit (s.reg x)))

/-- `RND Vx, kk` (R140): `V[x] <- rand8() & kk`, a fresh draw for each execution. -/
def execRnd (x : Reg) (kk : Byte) (s : State) : Host.Outcome State Fault Refusal :=
  .next (s.consumeDraw.setReg x (s.randomByte &&& kk))

end Sys2Proof.Machine
end

