-- ==== Sys2Proof/Machine/ControlFlow.lean ====
section
/-! DEFINITION. Control flow (spec/40_control_flow.md). A meaning runs with `pc` already advanced past
its word (spec/00_scope.md R8, spec/10_state.md R38); the step adds the advance and the tick. -/

namespace Sys2Proof.Machine

/-- `RET` (R101): `if depth = 0 then raise CallStackEmpty else pc <- pop(STK)`. -/
def execRet (s : State) : Host.Outcome State Fault Refusal :=
  match s.stk with
  | [] => .next (s.raise .callStackEmpty)
  | a :: rest => .next { s with stk := rest, pc := a }

/-- `JP nnn` (R102): `pc <- zext_16(nnn)`. -/
def execJp (nnn : Addr) (s : State) : Host.Outcome State Fault Refusal :=
  .next (s.setPc (addrWord nnn))

/-- `JP V0, nnn` (R103): `pc <- (zext_16(nnn) + zext_16(V[0])) mod 65536`. -/
def execJpV0 (nnn : Addr) (s : State) : Host.Outcome State Fault Refusal :=
  .next (s.setPc (addrWord nnn + byteWord (s.reg v0)))

/-- `CALL nnn` (R104): `if depth = 32 then raise CallStackFull else (push(STK, pc); pc <- nnn)`. -/
def execCall (nnn : Addr) (s : State) : Host.Outcome State Fault Refusal :=
  if s.depth = stackCap then .next (s.raise .callStackFull)
  else .next ((s.push s.pc).setPc (addrWord nnn))

/-- `SE Vx, kk` (R105). -/
def execSeImm (x : Reg) (kk : Byte) (s : State) : Host.Outcome State Fault Refusal :=
  .next (s.skipIf (s.reg x == kk))

/-- `SNE Vx, kk` (R106). -/
def execSneImm (x : Reg) (kk : Byte) (s : State) : Host.Outcome State Fault Refusal :=
  .next (s.skipIf (s.reg x != kk))

/-- `SE Vx, Vy` (R107). -/
def execSeReg (x y : Reg) (s : State) : Host.Outcome State Fault Refusal :=
  .next (s.skipIf (s.reg x == s.reg y))

/-- `SNE Vx, Vy` (R108). -/
def execSneReg (x y : Reg) (s : State) : Host.Outcome State Fault Refusal :=
  .next (s.skipIf (s.reg x != s.reg y))

end Sys2Proof.Machine
end

