-- ==== Sys2Proof/Machine/Fallback.lean ====
section
/-! DEFINITION. The no-op fallback (spec/45_noop_fallback.md). -/

namespace Sys2Proof.Machine

/-- `NOP` (R170): no state change; the step around it still advances `pc` and ticks the timers. -/
def execNop (s : State) : Host.Outcome State Fault Refusal := .next s

end Sys2Proof.Machine
end

