-- ==== Sys2Proof/Machine/Keypad.lean ====
section
/-! DEFINITION. The keypad instructions (spec/44_keypad.md): the only readers of `KEY`. -/

namespace Sys2Proof.Machine

/-- `SKP Vx` (R160): skip when the key is pressed. -/
def execSkp (x : Reg) (s : State) : Host.Outcome State Fault Refusal :=
  match keyIndex s.cfg.keyIndex (s.reg x) with
  | some k => .next (s.skipIf (s.key k))
  | none => .refused .keyIndexAbove15

/-- `SKNP Vx` (R161): skip when the key is not pressed. -/
def execSknp (x : Reg) (s : State) : Host.Outcome State Fault Refusal :=
  match keyIndex s.cfg.keyIndex (s.reg x) with
  | some k => .next (s.skipIf (!s.key k))
  | none => .refused .keyIndexAbove15

/-- `LD Vx, K` (R162): the lowest pressed key, or `pc` rewound onto this very instruction. -/
def execLdVxK (x : Reg) (s : State) : Host.Outcome State Fault Refusal :=
  match s.lowestKey with
  | some k => .next (s.setReg x (BitVec.ofNat 8 k))
  | none => .next s.rewind

end Sys2Proof.Machine
end

