-- ==== Sys2Proof/Machine/Load.lean ====
section
/-! DEFINITION. The load family (spec/41_load.md). No instruction of it faults or writes a flag, and none
changes `I` but `LD I, nnn` and `LD F, Vx` (R113). -/

namespace Sys2Proof.Machine

/-- `LD Vx, kk` (R110): `V[x] <- kk`. -/
def execLdImm (x : Reg) (kk : Byte) (s : State) : Host.Outcome State Fault Refusal :=
  .next (s.setReg x kk)

/-- `LD Vx, Vy` (R111): `V[x] <- V[y]`. -/
def execLdReg (x y : Reg) (s : State) : Host.Outcome State Fault Refusal :=
  .next (s.setReg x (s.reg y))

/-- `LD I, nnn` (R112): `I <- zext_16(nnn)`. -/
def execLdI (nnn : Addr) (s : State) : Host.Outcome State Fault Refusal :=
  .next (s.setIdx (addrWord nnn))

/-- `LD Vx, DT` (R114): `V[x] <- DT`, before the tick of the step. -/
def execLdVxDT (x : Reg) (s : State) : Host.Outcome State Fault Refusal :=
  .next (s.setReg x s.dt)

/-- `LD DT, Vx` (R115): `DT <- V[x]`; the tick of the same step then decrements it. -/
def execLdDTVx (x : Reg) (s : State) : Host.Outcome State Fault Refusal :=
  .next (s.setDt (s.reg x))

/-- `LD ST, Vx` (R116): `ST <- V[x]`; the tick of the same step then decrements it. -/
def execLdSTVx (x : Reg) (s : State) : Host.Outcome State Fault Refusal :=
  .next (s.setSt (s.reg x))

/-- `LD F, Vx` (R117): `I <- 0x0050 + 5 * zext_16(V[x])`. -/
def execLdF (x : Reg) (s : State) : Host.Outcome State Fault Refusal :=
  .next (s.setIdx (glyphAddr (s.reg x)))

/-- `LD B, Vx` (R119): hundreds, tens and ones of `V[x]` at `I`, `I + 1`, `I + 2`. -/
def execLdB (x : Reg) (s : State) : Host.Outcome State Fault Refusal :=
  .next (s.writeBytes s.idx (bcdDigits (s.reg x)))

/-- `LD [I], Vx` (R120): `for i = 0 to x: MemWrite(I + i, 1, V[i])`. -/
def execLdMemVx (x : Reg) (s : State) : Host.Outcome State Fault Refusal :=
  .next (s.writeBytes s.idx (s.regBlock x))

/-- `LD Vx, [I]` (R121): `for i = 0 to x: V[i] <- MemRead(I + i, 1)`. -/
def execLdVxMem (x : Reg) (s : State) : Host.Outcome State Fault Refusal :=
  .next (s.loadBlock x)

end Sys2Proof.Machine
end

