-- ==== Sys2Proof/Machine/Screen.lean ====
section
/-! DEFINITION. The display instructions (spec/43_display.md). -/

namespace Sys2Proof.Machine

/-- `CLS` (R150): every cell 0. -/
def execCls (s : State) : Host.Outcome State Fault Refusal :=
  .next (s.setDisp Display.blank)

/-- `DRW Vx, Vy, n` (R151): the sprite at `I` toggled onto the grid, `VF` the collision. The origin is
read before `VF` is written, so `x = 15` or `y = 15` uses the old `VF` (spec/10_state.md R39). -/
def execDrw (x y : Reg) (n : Nibble) (s : State) : Host.Outcome State Fault Refusal :=
  .next ((s.setDisp (drawPixels s.disp false (s.sprite x y n)).1).setReg vf
    (flagByte (drawPixels s.disp false (s.sprite x y n)).2))

end Sys2Proof.Machine
end

