-- ==== Sys2Proof/Machine/Step.lean ====
section
/-! DEFINITION. The step (spec/10_state.md R38): fetch, advance, decode, execute, tick. -/

namespace Sys2Proof.Machine

/-- One step. A halted core (`ERR` not `None`) does nothing (spec/60_exceptions.md R186). -/
def step (s : State) : Host.Outcome State Fault Refusal :=
  if s.err = .none then
    match exec (decode s.cfg s.fetchWord) s.advance with
    | .next t => .next (s.endStep t)
    | .fault f => .fault f
    | .refused r => .refused r
  else .next s

/-- `s` with a table word stored where the next step fetches it. The core fetches at `pc` from memory, so
nothing else is needed but that it is not halted. How a program comes to run: log 16. -/
def State.withFetchWord (s : State) (nbits w : Nat) : State := s.placeWord (tableWord nbits w)

end Sys2Proof.Machine
end

