-- ==== Sys2Proof/Machine/HostPort.lean ====
section
/-! DEFINITION. The host's moves and what it reads (spec/10_state.md R35, spec/60_exceptions.md R201,
spec/70_reset_and_hazards.md R210 to R213). All of them happen between steps. -/

namespace Sys2Proof.Machine

/-- The image copied into reset memory at 0x0200 upward (R210 (3)). The glyph table, written after it,
lies below 0x0200 and so is untouched (R210 (4)). -/
def imageMemory (c : Config) (image : List Byte) : List Host.Cell :=
  ((State.resetWith c).writeBytes (BitVec.ofNat 16 romBase) image).mem

/-- All state but `ERR` after a reset that failed: "all other state is then unspecified and
unobservable" (R211). It has no body, so nothing can evaluate it (log 6). -/
opaque Config.afterFailedReset : State → List Byte → State

/-- The free state of a failed reset, kept within what holds in every reachable state: at most 32 stack
entries (spec/10_state.md R34 (a)) and memory in canonical form (log 2). Every such stack and memory is
its own image, so the value is free among all of them (log 6). -/
def State.failedReset (s : State) (image : List Byte) : State :=
  { Config.afterFailedReset s image with
    cfg := s.cfg, stk := (Config.afterFailedReset s image).stk.take stackCap,
    mem := Memory.canonical (resetByte s.cfg) (Config.afterFailedReset s image).mem,
    err := .romLoad, draws := s.draws }

/-- `reset(ROM)` (R210, R211): possible at any time between steps, and complete each time (R213). The
parameters are constant (R32 (e)) and the draws already consumed stay consumed. -/
def State.resetWithImage (s : State) (image : List Byte) : State :=
  if image.length ≤ romMax then
    { State.resetWith s.cfg with mem := imageMemory s.cfg image, draws := s.draws }
  else
    s.failedReset image

/-- The `keys` port: the host writes the sixteen key states (R27, R35 (2)), in a halted core too. DESIGN
CHOICE, unsafe (log 24): R34 (f) has no state change once `ERR` is not `None` until reset, R35 (2) gives
the key move no condition on `ERR`; the model reads R34 (f) as R33 and R186 put it, of steps. -/
def State.setKeys (s : State) (k : Vector Bool 16) : State := { s with keys := k }

/-- The `display` port: `DISP[y][x]` as 0x00 or 0xFF (R28, spec/43_display.md R155). -/
def State.displayPort (s : State) (y : Fin 32) (x : Fin 64) : Byte :=
  if s.disp.lit ⟨x, y⟩ then cellLit else cellUnlit

/-- The numeric codes of `ERR` (R33, R188). -/
def ErrorCode.code : ErrorCode → BitVec 3
  | .none => 0
  | .romLoad => 1
  | .callStackFull => 2
  | .callStackEmpty => 3
  | .invalidAddressingMode => 4

/-- The `err` port (R201). -/
def State.errPort (s : State) : BitVec 3 := s.err.code

end Sys2Proof.Machine
end

