-- ==== Sys2Proof/Safety.lean ====
section
/-! DEFINITION. The terms claims are stated in: the invariant of the machine (spec/10_state.md R34), the
states the host can bring it to (R35), what a piece of state being unchanged means, and when two
states look alike to a program (R22, R23). -/

namespace Sys2Proof.Machine

/-- The invariant: the call stack holds at most 32 entries (R34 (a)) and `InvalidAddressingMode` never
arises (R184); and, the model's own, memory keeps its canonical form (log 2). The other clauses of R34
about values hold by the types of State. -/
structure State.Inv (s : State) : Prop where
  reachableError : s.err ≠ .invalidAddressingMode
  depthBound : s.depth ≤ stackCap
  memoryCanonical : Memory.wf (resetByte s.cfg) s.mem

/-- The states reached from power-up under the parameters `c` by any sequence of the host's moves of
R35: resets with any image, key updates, steps. The display and error reads change nothing. -/
inductive Reachable (c : Config) : State → Prop where
  /-- Power-up: a reset with an empty image. -/
  | powerUp : Reachable c (State.resetWith c)
  /-- A reset with an image, at any time between steps (R213). -/
  | reset {s : State} (image : List Byte) : Reachable c s → Reachable c (s.resetWithImage image)
  /-- The host writes the key states (R27). -/
  | keys {s : State} (k : Vector Bool 16) : Reachable c s → Reachable c (s.setKeys k)
  /-- The host requests a step. -/
  | step {s t : State} : Reachable c s → step s = .next t → Reachable c t

/-- The pieces of state, one per field. -/
inductive Part where
  | cfg | regs | idx | pc | dt | st | stk | keys | disp | mem | err | draws
  deriving DecidableEq, Repr

/-- A piece of state is the same in both states: every register, every cell, every byte of memory as a
read of it gives. -/
def Part.same (s t : State) : Part → Prop
  | .cfg => t.cfg = s.cfg
  | .regs => ∀ r, t.reg r = s.reg r
  | .idx => t.idx = s.idx
  | .pc => t.pc = s.pc
  | .dt => t.dt = s.dt
  | .st => t.st = s.st
  | .stk => t.stk = s.stk
  | .keys => t.keys = s.keys
  | .disp => ∀ p, t.disp.lit p = s.disp.lit p
  | .mem => ∀ a, t.readByte a = s.readByte a
  | .err => t.err = s.err
  | .draws => t.draws = s.draws

/-- Nothing but the named pieces of state differs between `s` and `t`. -/
def OnlyChanges (ps : List Part) (s t : State) : Prop := ∀ p, p ∉ ps → Part.same s t p

/-- No register but the named ones differs. -/
def OnlyRegs (rs : List Reg) (s t : State) : Prop := ∀ r, r ∉ rs → t.reg r = s.reg r

/-- A result and its flag land (R39 (c)), `res` and `flag` given as numbers: the destination holds the
result and `VF` the flag; when the destination IS `VF`, `VF_PRIORITY` says which one it holds. -/
structure ResultAndFlag (x : Reg) (res flag : Nat) (s t : State) : Prop where
  result : x ≠ vf → (t.reg x).toNat = res
  flagWins : x ≠ vf ∨ s.cfg.vfPriority = .flag → (t.reg vf).toNat = flag
  resultWins : x = vf → s.cfg.vfPriority = .result → (t.reg vf).toNat = res

/-- Byte `j` of the word the next step fetches, in memory order: 0 its high byte, 1 its low byte (R53). -/
def State.fetchedByte (s : State) (j : Fin 2) : Byte :=
  if j = 0 then hiByte s.fetchWord else loByte s.fetchWord

/-- Under the spec's default parameters every word that matches decodes to the instruction (R76). -/
def EncodedAs (mask pattern : Word) (f : Word → Instr) : Prop :=
  ∀ w, w &&& mask = pattern → decode Config.default w = f w

/-- The two states differ at most in bits 15 to 12 of `pc`, of `I` and of the stack entries. -/
structure LooksAlike (s t : State) : Prop where
  pc : s.pc.toNat % 4096 = t.pc.toNat % 4096
  idx : s.idx.toNat % 4096 = t.idx.toNat % 4096
  stk : s.stk.map (·.toNat % 4096) = t.stk.map (·.toNat % 4096)
  rest : { s with pc := 0, idx := 0, stk := [] } = { t with pc := 0, idx := 0, stk := [] }

end Sys2Proof.Machine
end

