-- ==== Sys2Proof/Certificates/Slice0/Obligations.lean ====
section
/-! DEFINITION. The statements for the provers. In every statement about `exec`, the state `s` is the one
the handler runs in: its `pc` is already past the instruction word (spec/00_scope.md R8,
spec/10_state.md R38). No statement says what `pc`, `DT` or `ST` hold after a faulting step
(spec/93_implementation_defined.md U1, log 5), and none rests on the value of `draws` (log 3). -/

open Sys2Proof Sys2Proof.Machine

/-! ## Encoding -/

/-- Decoding the word of a well-formed instruction gives it back, under every decoder parameter, and so
does decoding its two bytes at the front of any byte sequence. The numbers of 29 rows are the spec's
decision D3 (log 13), the parameters its decisions D4 and D5 (log 11, 12). -/
def Obligations.EncodeThenDecodeGivesTheInstruction : Prop :=
  ∀ (c : Config) (i : Instr) (rest : List Byte), i.wf c = true →
    decode c (encode i) = i ∧ decodeBytes c (encodeBytes i ++ rest) = .ok (i, rest)

/-- Outside the groups whose decoder ignores a nibble (0x0, 0x5, 0x9; 0xE too when the low nibble is what
it tests) no bit of a word is dropped: encoding what was decoded gives the word. -/
def Obligations.DecodeThenEncodeGivesTheWord : Prop :=
  ∀ (c : Config) (w : Word), fieldT w ≠ 0x0 → fieldT w ≠ 0x5 → fieldT w ≠ 0x9 →
    (fieldT w = 0xE → c.groupEField = .kk) → encode (decode c w) = w

/-- R76: a word selects a row by mask and match, the fallback is the complement, and no word selects
two rows. The opcode numbers of 29 rows are the spec's decision D3 (log 13). -/
def Obligations.DecodeFollowsTheOpcodeMap : Prop :=
  (∀ r ∈ opcodeMap, ∀ w : Word, r.selects w = true ↔ (decode Config.default w).row = r.row) ∧
  (∀ w : Word, (∀ r ∈ opcodeMap, r.selects w = false) ↔ decode Config.default w = .nop w) ∧
  (∀ r ∈ opcodeMap, ∀ r' ∈ opcodeMap, ∀ w : Word,
    r.selects w = true → r'.selects w = true → r = r')

/-- R77: the fallback takes exactly the reserved words, whatever the decoder parameters (decisions D4
and D5, log 11, 12), and carries the word itself. The numbers rest on the spec's decision D3 (log 13). -/
def Obligations.FallbackIsExactlyTheReservedWords : Prop :=
  ∀ (c : Config) (w raw : Word), decode c w = .nop raw ↔ raw = w ∧ isFallback c w = true

/-- R78: every word yields exactly one instruction, with payload fields equal to the fixed extraction
formulas (R71), so that no handler can be given a payload it does not expect. -/
def Obligations.DecodedFieldsAreTheFixedFormulas : Prop :=
  (∀ (c : Config) (w : Word),
    match decode c w with
    | .cls | .ret => True
    | .jp a | .call a | .ldI a | .jpV0 a => a.toNat = (w &&& 0x0FFF#16).toNat
    | .seImm x k | .sneImm x k | .ldImm x k | .addImm x k | .rnd x k =>
      x.val = ((w &&& 0x0F00#16) >>> 8).toNat ∧ k.toNat = (w &&& 0x00FF#16).toNat
    | .seReg x y | .sneReg x y | .ldReg x y | .orReg x y | .andReg x y | .xorReg x y
    | .addReg x y | .subReg x y | .shr x y | .subnReg x y | .shl x y =>
      x.val = ((w &&& 0x0F00#16) >>> 8).toNat ∧ y.val = ((w &&& 0x00F0#16) >>> 4).toNat
    | .drw x y n =>
      x.val = ((w &&& 0x0F00#16) >>> 8).toNat ∧ y.val = ((w &&& 0x00F0#16) >>> 4).toNat ∧
        n.toNat = (w &&& 0x000F#16).toNat
    | .skp x | .sknp x | .ldVxDT x | .ldVxK x | .ldDTVx x | .ldSTVx x | .addI x | .ldF x | .ldB x
    | .ldMemVx x | .ldVxMem x => x.val = ((w &&& 0x0F00#16) >>> 8).toNat
    | .nop raw => raw = w) ∧
  (∀ (i : Instr) (s : State), (∀ f : Fault, exec i s ≠ .fault f) ∧
    ∀ t : State, s.err ≠ .invalidAddressingMode → exec i s = .next t →
      t.err ≠ .invalidAddressingMode)

/-- Words of spec/95_test_vectors.md Part 4, one at least of each family. The opcode numbers of 29 rows are
the spec's decision D3 (log 13, PRESUMED); that 0x0AE0 is `CLS` is its decision D4 (log 11). -/
def Obligations.SampleWordsDecode : Prop :=
  decode Config.default 0x00E0 = .cls ∧ decode Config.default 0x0AE0 = .cls ∧
  decode Config.default 0x00EE = .ret ∧ decode Config.default 0x2208 = .call 0x208 ∧
  decode Config.default 0x3A7F = .seImm 0xA 0x7F ∧ decode Config.default 0x6005 = .ldImm 0 0x05 ∧
  decode Config.default 0x8AB4 = .addReg 0xA 0xB ∧ decode Config.default 0x8ABE = .shl 0xA 0xB ∧
  decode Config.default 0xC5F0 = .rnd 5 0xF0 ∧ decode Config.default 0xD125 = .drw 1 2 5 ∧
  decode Config.default 0xE5A1 = .sknp 5 ∧ decode Config.default 0xF50A = .ldVxK 5 ∧
  decode Config.default 0xF555 = .ldMemVx 5 ∧ decode Config.default 0x8AB8 = .nop 0x8AB8

/-! ## The step -/

/-- R38: when the two bytes at `pc` decode to `i`, the step runs `i` with `pc` advanced by 2 and then
ticks both timers; when the handler raised an error, the step leaves `ERR` with its code and every
register, `I`, the stack, memory, the display and the keys as before the step (R185, the spec's decision
D13); a refusal of the handler is the step's. -/
def Obligations.StepRunsTheDecodedInstruction : Prop :=
  ∀ (s : State) (i : Instr), s.err = .none →
    decodeBytes s.cfg [s.readByte s.pc, s.readByte (s.pc + 1#16)] = .ok (i, []) →
    (∀ t, exec i { s with pc := s.pc + 2#16 } = .next t →
      (t.err = .none → step s = .next { t with dt := tickTimer t.dt, st := tickTimer t.st }) ∧
      (t.err ≠ .none → ∃ u, step s = .next u ∧ u.err = t.err ∧ OnlyChanges [.err, .pc, .dt, .st] s u)) ∧
    (∀ r, exec i { s with pc := s.pc + 2#16 } = .refused r → step s = .refused r)

/-- R224, R164 (a): a requested step always completes, under the default key index policy (the spec's
decision D12). -/
def Obligations.StepAlwaysCompletes : Prop :=
  ∀ s : State, s.cfg.keyIndex = .mask4 → ∃ t, step s = .next t

/-- R163, R190: whatever the parameters, the one step without a next state is that of `SKP` or `SKNP`
with a register above 15 under `KEY_INDEX_POLICY = fault` (the spec's decision D12), and it is a
refusal. -/
def Obligations.OnlyAKeyIndexAbove15IsRefused : Prop :=
  ∀ s : State, (¬ ∃ t, step s = .next t) ↔
    s.err = .none ∧ s.cfg.keyIndex = .fault ∧ step s = .refused .keyIndexAbove15 ∧
    ∃ x : Reg, 15 < (s.reg x).toNat ∧
      (decode s.cfg s.fetchWord = .skp x ∨ decode s.cfg s.fetchWord = .sknp x)

/-- R40, the completed steps: where each instruction leaves `pc`, from the address `s.pc` it was fetched
from, all sums modulo 65536 (the spec's decision D8). -/
def Obligations.CompletedStepLeavesPcWhereTheTableSays : Prop :=
  ∀ s t : State, s.err = .none → step s = .next t → t.err = .none →
    match decode s.cfg s.fetchWord with
    | .jp a | .call a => t.pc.toNat = a.toNat
    | .jpV0 a => t.pc.toNat = a.toNat + (s.reg 0).toNat
    | .ret => s.stk.head? = some t.pc
    | .seImm x k => t.pc.toNat = (s.pc.toNat + if s.reg x = k then 4 else 2) % 65536
    | .sneImm x k => t.pc.toNat = (s.pc.toNat + if s.reg x = k then 2 else 4) % 65536
    | .seReg x y => t.pc.toNat = (s.pc.toNat + if s.reg x = s.reg y then 4 else 2) % 65536
    | .sneReg x y => t.pc.toNat = (s.pc.toNat + if s.reg x = s.reg y then 2 else 4) % 65536
    | .skp x => ∃ k, keyIndex s.cfg.keyIndex (s.reg x) = some k ∧
        t.pc.toNat = (s.pc.toNat + if s.key k = true then 4 else 2) % 65536
    | .sknp x => ∃ k, keyIndex s.cfg.keyIndex (s.reg x) = some k ∧
        t.pc.toNat = (s.pc.toNat + if s.key k = true then 2 else 4) % 65536
    | .ldVxK _ => ((∃ k, s.key k = true) → t.pc.toNat = (s.pc.toNat + 2) % 65536) ∧
        ((∀ k, s.key k = false) → t.pc = s.pc)
    | _ => t.pc.toNat = (s.pc.toNat + 2) % 65536

/-- R41, the completed steps: both timers are 1 less, never below 0, whatever the instruction (the spec's
decision D20), counted from what the handler left: from the register for the timer it loads. -/
def Obligations.CompletedStepTicksBothTimers : Prop :=
  ∀ s t : State, s.err = .none → step s = .next t → t.err = .none →
    (t.dt.toNat = match decode s.cfg s.fetchWord with
      | .ldDTVx x => (s.reg x).toNat - 1
      | _ => s.dt.toNat - 1) ∧
    (t.st.toNat = match decode s.cfg s.fetchWord with
      | .ldSTVx x => (s.reg x).toNat - 1
      | _ => s.st.toNat - 1)

/-- R186 (the spec's decision D13): a halted core does nothing when a step is requested, a key update
changes no more than the keys (that it changes them at all is the model's choice, log 24) and leaves it
halted, and a reset with an image that fits clears `ERR`. -/
def Obligations.HaltedCoreDoesNothingUntilReset : Prop :=
  ∀ (s : State) (k : Vector Bool 16) (image : List Byte), s.err ≠ .none →
    step s = .next s ∧ OnlyChanges [.keys] s (s.setKeys k) ∧ step (s.setKeys k) = .next (s.setKeys k) ∧
    (image.length ≤ 3584 → (s.resetWithImage image).err = .none)

/-- R182, R183, R184, R187: which handler raises which error, and when; nothing else raises one. -/
def Obligations.ErrorsComeFromCallAndReturnAlone : Prop :=
  ∀ (i : Instr) (s t : State), s.err = .none → exec i s = .next t →
    (t.err = .callStackFull ↔ (∃ nnn, i = .call nnn) ∧ s.stk.length = 32) ∧
    (t.err = .callStackEmpty ↔ i = .ret ∧ s.stk = []) ∧
    t.err ≠ .romLoad ∧ t.err ≠ .invalidAddressingMode

/-- R185, R182, R183 (the spec's decision D13; nothing is said of `pc`, `DT` and `ST`, U1): a call on a
full stack and a return on an empty one set `ERR`, read by the host as 2 and 3 (R188, the spec's decision
D14, log 21), and leave every register, `I`, the stack, memory, the display and the keys as before the
step, and the next step does nothing. -/
def Obligations.FaultingStepSetsErrAndHalts : Prop :=
  ∀ s : State, s.err = .none →
    ((∃ nnn, decode s.cfg s.fetchWord = .call nnn) → s.stk.length = 32 →
      ∃ t, step s = .next t ∧ t.err = .callStackFull ∧ t.errPort = 2 ∧
        OnlyChanges [.err, .pc, .dt, .st] s t ∧ step t = .next t) ∧
    (decode s.cfg s.fetchWord = .ret → s.stk = [] →
      ∃ t, step s = .next t ∧ t.err = .callStackEmpty ∧ t.errPort = 3 ∧
        OnlyChanges [.err, .pc, .dt, .st] s t ∧ step t = .next t)

/-! ## Whole-machine rules -/

/-- R59, R28, R66: only the BCD store and the block store change a byte of memory, only clear and draw
change a cell of the display, only call and return change the stack. What a handler does not name it does
not change: the spec's decision D19. -/
def Obligations.MemoryDisplayAndStackHaveFixedWriters : Prop :=
  ∀ (i : Instr) (s t : State), exec i s = .next t →
    ((∀ x, i ≠ .ldB x) → (∀ x, i ≠ .ldMemVx x) → ∀ a, t.readByte a = s.readByte a) ∧
    (i ≠ .cls → (∀ x y n, i ≠ .drw x y n) → ∀ p, t.disp.lit p = s.disp.lit p) ∧
    ((∀ nnn, i ≠ .call nnn) → i ≠ .ret → t.stk = s.stk)

/-- R22, R24, R25, R30, R113: only `LD I, nnn`, `ADD I, Vx` and `LD F, Vx` change `I`, so no memory
instruction does (the spec's decision D19); only `LD DT, Vx` and `LD ST, Vx` change the timers in their
handler. -/
def Obligations.IndexAndTimersHaveFixedWriters : Prop :=
  ∀ (i : Instr) (s t : State), exec i s = .next t →
    ((∀ a, i ≠ .ldI a) → (∀ x, i ≠ .addI x) → (∀ x, i ≠ .ldF x) → t.idx = s.idx) ∧
    ((∀ x, i ≠ .ldDTVx x) → t.dt = s.dt) ∧ ((∀ x, i ≠ .ldSTVx x) → t.st = s.st)

/-- R21: an instruction that is not one of the six flag writers and does not name register 15 as an
ordinary destination leaves `VF` alone; each of the six leaves 0 or 1 in it (when `VF` is also its
destination: under `VF_PRIORITY = flag`, the spec's decision D7). -/
def Obligations.SixInstructionsWriteTheFlag : Prop :=
  ∀ (i : Instr) (s t : State), exec i s = .next t →
    match i with
    | .addReg x _ | .subReg x _ | .subnReg x _ | .shr x _ | .shl x _ =>
      x ≠ vf ∨ s.cfg.vfPriority = .flag → t.reg vf = 0 ∨ t.reg vf = 1
    | .drw _ _ _ => t.reg vf = 0 ∨ t.reg vf = 1
    | .ldImm x _ | .addImm x _ | .ldReg x _ | .orReg x _ | .andReg x _ | .xorReg x _ | .rnd x _
    | .ldVxDT x | .ldVxK x | .ldVxMem x => x ≠ vf → t.reg vf = s.reg vf
    | _ => t.reg vf = s.reg vf

/-- R27, R32 (e): no step changes the key states, which the host alone writes, or the parameters. -/
def Obligations.StepKeepsKeysAndParameters : Prop :=
  ∀ s t : State, step s = .next t → t.keys = s.keys ∧ t.cfg = s.cfg

/-- R22, R23, R26 (U12): two states that differ only in bits 15 to 12 of `pc`, `I` and the stack entries
take steps to two such states, so no program can tell them apart. That these bits are stored at all is the
spec's decisions D8, D9 and D24. -/
def Obligations.HighAddressBitsAreInvisible : Prop :=
  ∀ s t s' : State, LooksAlike s t → step s = .next s' →
    ∃ t', step t = .next t' ∧ LooksAlike s' t'

/-- Every step keeps the invariant: the stack holds at most 32 entries (R34 (a)) and
`InvalidAddressingMode` never arises (R184); and, a form of the model and no rule of the spec, memory
keeps its canonical form (log 2). -/
def Obligations.EveryStepKeepsTheInvariant : Prop :=
  ∀ s t : State, s.Inv → step s = .next t → t.Inv

/-- The state after reset meets the invariant, under every parameter. Its clause on the canonical form of
memory is the model's own (log 2). -/
def Obligations.ResetMeetsTheInvariant : Prop :=
  State.reset.Inv ∧ ∀ c : Config, (State.resetWith c).Inv

/-- R34 (a), R35: whatever the host does between steps (resets with any image, one too long among them,
key updates), every state it can bring the machine to meets the invariant and has the parameters it
started with. The clause on the canonical form of memory is the model's own (log 2); what a failed reset
leaves is a free value within the invariant (log 6). That a reset may be repeated is the spec's decision
D27, that a key update may hit a halted core the model's choice (log 24). -/
def Obligations.EveryReachableStateMeetsTheInvariant : Prop :=
  ∀ (c : Config) (s : State), Reachable c s → s.Inv ∧ s.cfg = c

/-- Canonical memories that read alike at every address are the same list, so equal memories are equal
data (the model's form of memory, log 2). -/
def Obligations.CanonicalMemoryIsDeterminedByItsBytes : Prop :=
  ∀ (c : Config) (m m' : List Host.Cell),
    Memory.wf (resetByte c) m → Memory.wf (resetByte c) m' →
    (∀ a < 4096, Memory.read (resetByte c) m a = Memory.read (resetByte c) m' a) → m = m'

/-! ## Reset and the host -/

/-- R57: the address map after a reset with an image that fits. The image and the glyph table are
inputs; every other byte is 0, `pc` starts at 0x0200, and every byte is ordinary memory: what is written
to it is read back and no other byte changes. -/
def Obligations.ResetLaysOutMemory : Prop :=
  ∀ (s : State) (image : List Byte), image.length ≤ 3584 →
    (∀ (d : Nat) (hd : d < 16) (k : Nat) (hk : k < 5),
      (s.resetWithImage image).readByte (BitVec.ofNat 16 (0x0050 + 5 * d + k)) =
        s.cfg.glyphTable[d][k]) ∧
    (∀ (j : Nat) (hj : j < image.length),
      (s.resetWithImage image).readByte (BitVec.ofNat 16 (0x0200 + j)) = image[j]) ∧
    (∀ a : Nat, a < 4096 → (a < 0x0050 ∨ (0x00A0 ≤ a ∧ a < 0x0200) ∨ 0x0200 + image.length ≤ a) →
      (s.resetWithImage image).readByte (BitVec.ofNat 16 a) = 0) ∧
    (s.resetWithImage image).pc = 0x0200 ∧
    (∀ (a a' : Word) (b : Byte), ((s.resetWithImage image).writeByte a b).readByte a' =
      if a'.toNat % 4096 = a.toNat % 4096 then b else (s.resetWithImage image).readByte a')

/-- R36, R213: every register, timer, stack entry, key and cell after a reset with an image that fits,
whatever the state before it. That `I` is 0 and the keys are released is the spec's decision D16, that
`ERR` is `None` its decision D13, and that the host reads it as 0 (R33, R188) its decision D14 (log 21). -/
def Obligations.ResetClearsEverythingElse : Prop :=
  ∀ (s : State) (image : List Byte), image.length ≤ 3584 →
    (∀ r, (s.resetWithImage image).reg r = 0) ∧ (s.resetWithImage image).idx = 0 ∧
    (s.resetWithImage image).dt = 0 ∧ (s.resetWithImage image).st = 0 ∧
    (s.resetWithImage image).stk = [] ∧ (∀ k, (s.resetWithImage image).key k = false) ∧
    (∀ y x, (s.resetWithImage image).displayPort y x = 0x00) ∧
    (s.resetWithImage image).err = .none ∧ (s.resetWithImage image).errPort = 0 ∧
    (s.resetWithImage image).cfg = s.cfg

/-- R181, R211 (the spec's decision D15): a reset with an image longer than 3584 bytes sets `ERR` to
`RomLoad`, read by the host as 1 (R188, the spec's decision D14, log 21), and no step can run until a
reset succeeds. -/
def Obligations.ResetWithTooLongAnImageFails : Prop :=
  ∀ (s : State) (image : List Byte), 3584 < image.length →
    (s.resetWithImage image).err = .romLoad ∧ (s.resetWithImage image).errPort = 1 ∧
    step (s.resetWithImage image) = .next (s.resetWithImage image) ∧
    (∀ image' : List Byte, image'.length ≤ 3584 →
      ((s.resetWithImage image).resetWithImage image').err = .none)

/-! ## Control flow -/

/-- R104: `CALL nnn` pushes the address of the instruction after it and goes to `nnn`; with 32 pending
calls it raises `CallStackFull` before any other change. -/
def Obligations.CallPushesAndJumps : Prop :=
  EncodedAs 0xF000#16 0x2000#16 (fun w => .call (fieldNNN w)) ∧
  ∀ (nnn : Addr) (s : State),
    (s.stk.length ≠ 32 → ∃ t, exec (.call nnn) s = .next t ∧ t.pc.toNat = nnn.toNat ∧
      t.stk = s.pc :: s.stk ∧ OnlyChanges [.pc, .stk] s t) ∧
    (s.stk.length = 32 → ∃ t, exec (.call nnn) s = .next t ∧ t.err = .callStackFull ∧
      OnlyChanges [.err] s t)

/-- R101: `RET` pops the last pushed address into `pc`, unmasked; on an empty stack it raises
`CallStackEmpty` before any other change. That the `x` nibble is not tested is the spec's decision D4. -/
def Obligations.ReturnPopsIntoPc : Prop :=
  EncodedAs 0xF0FF#16 0x00EE#16 (fun _ => .ret) ∧
  ∀ s : State,
    (∀ a rest, s.stk = a :: rest → ∃ t, exec .ret s = .next t ∧ t.pc = a ∧ t.stk = rest ∧
      OnlyChanges [.pc, .stk] s t) ∧
    (s.stk = [] → ∃ t, exec .ret s = .next t ∧ t.err = .callStackEmpty ∧ OnlyChanges [.err] s t)

/-- R101, R104, R109: a call saves `pc0 + 2` and the return that finds it on top of the stack restores it,
whatever ran between the two; neither saves or restores anything else: each handler changes `pc` and the
stack alone, each step those and the timers, which tick; at most 32 calls can be pending; no other
instruction touches the stack. That `pc0 + 2` wraps at 65536 and is stored unmasked is the spec's
decisions D8 and D24 (log 18), the tick its decision D20, that no other instruction is concerned its
decision D19. -/
def Obligations.CallThenReturnComesBack : Prop :=
  (∀ (nnn : Addr) (s : State), s.stk.length ≠ 32 → ∃ t, exec (.call nnn) s = .next t ∧
    t.stk = s.pc :: s.stk ∧ OnlyChanges [.pc, .stk] s t) ∧
  (∀ (a : Word) (rest : List Word) (s : State), s.stk = a :: rest → ∃ t, exec .ret s = .next t ∧
    t.pc = a ∧ t.stk = rest ∧ OnlyChanges [.pc, .stk] s t) ∧
  (∀ (s r : State) (nnn : Addr), s.err = .none → s.stk.length ≠ 32 →
    decode s.cfg s.fetchWord = .call nnn →
    ∃ t, step s = .next t ∧ t.pc.toNat = nnn.toNat ∧ OnlyChanges [.pc, .stk, .dt, .st] s t ∧
      t.dt.toNat = s.dt.toNat - 1 ∧ t.st.toNat = s.st.toNat - 1 ∧
      (r.err = .none → r.stk = t.stk → decode r.cfg r.fetchWord = .ret →
        ∃ u, step r = .next u ∧ u.pc = s.pc + 2#16 ∧ u.stk = s.stk ∧
          OnlyChanges [.pc, .stk, .dt, .st] r u ∧
          u.dt.toNat = r.dt.toNat - 1 ∧ u.st.toNat = r.st.toNat - 1)) ∧
  (∀ (s t : State) (nnn : Addr), s.err = .none → s.stk.length = 32 →
    exec (.call nnn) s = .next t → t.err = .callStackFull) ∧
  (∀ (i : Instr) (s t : State), (∀ nnn, i ≠ .call nnn) → i ≠ .ret → exec i s = .next t →
    t.stk = s.stk)

/-- R102, R103: the two jumps. The sum of `JP V0, nnn` is kept as it is, above 0x0FFF too (`pc` is stored
unmasked: the spec's decision D8); no return address is pushed. -/
def Obligations.JumpsSetPcAlone : Prop :=
  (∀ (nnn : Addr) (s : State), ∃ t, exec (.jp nnn) s = .next t ∧ t.pc.toNat = nnn.toNat ∧
    OnlyChanges [.pc] s t) ∧
  (∀ (nnn : Addr) (s : State), ∃ t, exec (.jpV0 nnn) s = .next t ∧
    t.pc.toNat = nnn.toNat + (s.reg 0).toNat ∧ OnlyChanges [.pc] s t)

/-- R105 to R108: the compare skips add 2 to `pc` when their condition holds and change nothing else. The wrap
at 65536 is the spec's decision D8. -/
def Obligations.CompareSkipsAddTwoOnTheirCondition : Prop :=
  (∀ (x : Reg) (kk : Byte) (s : State),
    (∃ t, exec (.seImm x kk) s = .next t ∧ OnlyChanges [.pc] s t ∧
      t.pc.toNat = (s.pc.toNat + if (s.reg x).toNat = kk.toNat then 2 else 0) % 65536) ∧
    (∃ t, exec (.sneImm x kk) s = .next t ∧ OnlyChanges [.pc] s t ∧
      t.pc.toNat = (s.pc.toNat + if (s.reg x).toNat = kk.toNat then 0 else 2) % 65536)) ∧
  (∀ (x y : Reg) (s : State),
    (∃ t, exec (.seReg x y) s = .next t ∧ OnlyChanges [.pc] s t ∧
      t.pc.toNat = (s.pc.toNat + if (s.reg x).toNat = (s.reg y).toNat then 2 else 0) % 65536) ∧
    (∃ t, exec (.sneReg x y) s = .next t ∧ OnlyChanges [.pc] s t ∧
      t.pc.toNat = (s.pc.toNat + if (s.reg x).toNat = (s.reg y).toNat then 0 else 2) % 65536))

/-! ## Loads -/

/-- R110: `LD Vx, kk` replaces the whole byte, of `VF` like of any register. -/
def Obligations.LoadImmediateReplacesTheRegister : Prop :=
  EncodedAs 0xF000#16 0x6000#16 (fun w => .ldImm (fieldX w) (fieldKK w)) ∧
  ∀ (x : Reg) (kk : Byte) (s : State), ∃ t, exec (.ldImm x kk) s = .next t ∧ t.reg x = kk ∧
    OnlyRegs [x] s t ∧ OnlyChanges [.regs] s t

/-- R111, R114: the copy of a register, and of the delay timer as it is before the tick of the step. -/
def Obligations.CopiesIntoARegister : Prop :=
  (∀ (x y : Reg) (s : State), ∃ t, exec (.ldReg x y) s = .next t ∧ t.reg x = s.reg y ∧
    OnlyRegs [x] s t ∧ OnlyChanges [.regs] s t) ∧
  (∀ (x : Reg) (s : State), ∃ t, exec (.ldVxDT x) s = .next t ∧ t.reg x = s.dt ∧
    OnlyRegs [x] s t ∧ OnlyChanges [.regs] s t)

/-- R115, R116: the two timer loads; the tick of the same step is not part of the handler. -/
def Obligations.TimerLoadsWriteTheTimerAlone : Prop :=
  ∀ (x : Reg) (s : State),
    (∃ t, exec (.ldDTVx x) s = .next t ∧ t.dt = s.reg x ∧ OnlyChanges [.dt] s t) ∧
    (∃ t, exec (.ldSTVx x) s = .next t ∧ t.st = s.reg x ∧ OnlyChanges [.st] s t)

/-- R216: `LD DT, Vx` followed by `LD Vy, DT` reads one less than `Vx`, or 0 when `Vx` is 0 (that the
load's own step ticks is the spec's decision D20). -/
def Obligations.TimerLoadedThenReadIsOneLess : Prop :=
  ∀ (s t u : State) (x y : Reg), s.err = .none → decode s.cfg s.fetchWord = .ldDTVx x →
    step s = .next t → decode t.cfg t.fetchWord = .ldVxDT y → step t = .next u →
    (u.reg y).toNat = (s.reg x).toNat - 1 ∧ u.dt.toNat = (s.reg x).toNat - 2

/-- R112, R117, R132: the three writers of `I`. The whole byte is multiplied by 5 in `LD F, Vx`; the wrap
of `ADD I, Vx` at 65536 is the spec's decision D9. -/
def Obligations.IndexIsLoadedAndAdded : Prop :=
  (∀ (nnn : Addr) (s : State), ∃ t, exec (.ldI nnn) s = .next t ∧ t.idx.toNat = nnn.toNat ∧
    OnlyChanges [.idx] s t) ∧
  (∀ (x : Reg) (s : State), ∃ t, exec (.ldF x) s = .next t ∧
    t.idx.toNat = 0x0050 + 5 * (s.reg x).toNat ∧ OnlyChanges [.idx] s t) ∧
  (∀ (x : Reg) (s : State), ∃ t, exec (.addI x) s = .next t ∧
    t.idx.toNat = (s.idx.toNat + (s.reg x).toNat) % 65536 ∧ OnlyChanges [.idx] s t)

/-- R119, R113: `LD B, Vx` stores the hundreds, tens and ones of `Vx` at `I`, `I + 1`, `I + 2`, each
address masked by itself, and changes no other byte and nothing else. That `I` does not move is the
spec's decision D19. -/
def Obligations.BcdStoreWritesThreeDigits : Prop :=
  ∀ (x : Reg) (s : State), ∃ t, exec (.ldB x) s = .next t ∧
    (t.readByte (s.effAddr 0)).toNat = (s.reg x).toNat / 100 ∧
    (t.readByte (s.effAddr 1)).toNat = (s.reg x).toNat / 10 % 10 ∧
    (t.readByte (s.effAddr 2)).toNat = (s.reg x).toNat % 10 ∧
    (∀ a, (∀ k < 3, maskAddr a ≠ maskAddr (s.effAddr k)) → t.readByte a = s.readByte a) ∧
    OnlyChanges [.mem] s t

/-- R120, R113: `LD [I], Vx` stores `V[k]` at `I + k` for `k = 0..x`, each address masked by itself, and
changes no other byte and nothing else (`I` does not move: the spec's decision D19). -/
def Obligations.BlockStoreWritesRegistersInOrder : Prop :=
  ∀ (x : Reg) (s : State), ∃ t, exec (.ldMemVx x) s = .next t ∧
    (∀ k : Reg, k ≤ x → t.readByte (s.effAddr k) = s.reg k) ∧
    (∀ a, (∀ k : Reg, k ≤ x → maskAddr a ≠ maskAddr (s.effAddr k)) → t.readByte a = s.readByte a) ∧
    OnlyChanges [.mem] s t

/-- R121, R113: `LD Vx, [I]` loads `V[k]` from `I + k` for `k = 0..x` and changes nothing else (`I` does
not move: the spec's decision D19). -/
def Obligations.BlockLoadReadsRegistersInOrder : Prop :=
  ∀ (x : Reg) (s : State), ∃ t, exec (.ldVxMem x) s = .next t ∧
    (∀ k : Reg, k ≤ x → t.reg k = s.readByte (s.effAddr k)) ∧
    (∀ k : Reg, x < k → t.reg k = s.reg k) ∧ OnlyChanges [.regs] s t

/-- R63, R218: a store over either byte of the next instruction is what the next step fetches, for both
instructions that store: a byte of the word at `pc` after the step is the byte stored there (the register,
or the decimal digit), and as it was in memory before where nothing was stored. `n` runs over the bytes
stored; addresses meet modulo 4096 (R51). -/
def Obligations.StoredRegistersAreFetchedNext : Prop :=
  ∀ (s : State) (x : Reg), s.err = .none →
    (decode s.cfg s.fetchWord = .ldMemVx x → ∃ t, step s = .next t ∧ ∀ j : Fin 2,
      (∀ n : Reg, n ≤ x → (s.idx.toNat + n.val) % 4096 = (s.pc.toNat + 2 + j.val) % 4096 →
        t.fetchedByte j = s.reg n) ∧
      ((∀ n : Reg, n ≤ x → (s.idx.toNat + n.val) % 4096 ≠ (s.pc.toNat + 2 + j.val) % 4096) →
        t.fetchedByte j = s.readByte (s.pc + 2#16 + BitVec.ofNat 16 j.val))) ∧
    (decode s.cfg s.fetchWord = .ldB x → ∃ t, step s = .next t ∧ ∀ j : Fin 2,
      (∀ n < 3, (s.idx.toNat + n) % 4096 = (s.pc.toNat + 2 + j.val) % 4096 →
        (t.fetchedByte j).toNat = (s.reg x).toNat / 10 ^ (2 - n) % 10) ∧
      ((∀ n < 3, (s.idx.toNat + n) % 4096 ≠ (s.pc.toNat + 2 + j.val) % 4096) →
        t.fetchedByte j = s.readByte (s.pc + 2#16 + BitVec.ofNat 16 j.val)))

/-! ## Arithmetic and logic -/

/-- R130: `ADD Vx, kk` wraps and writes no flag: with `x = 15` the sum lands in `VF` itself. -/
def Obligations.AddImmediateWrapsWithoutAFlag : Prop :=
  ∀ (x : Reg) (kk : Byte) (s : State), ∃ t, exec (.addImm x kk) s = .next t ∧
    (t.reg x).toNat = ((s.reg x).toNat + kk.toNat) % 256 ∧ OnlyRegs [x] s t ∧ OnlyChanges [.regs] s t

/-- R131: `ADD Vx, Vy` keeps the low byte of the sum and sets `VF` to the carry. Which write lands when
`x = 15` is the parameter `VF_PRIORITY` (the spec's decision D7). -/
def Obligations.AddRegistersSetsTheCarry : Prop :=
  ∀ (x y : Reg) (s : State), ∃ t, exec (.addReg x y) s = .next t ∧
    ResultAndFlag x (((s.reg x).toNat + (s.reg y).toNat) % 256)
      (if (s.reg x).toNat + (s.reg y).toNat > 255 then 1 else 0) s t ∧
    OnlyRegs [x, vf] s t ∧ OnlyChanges [.regs] s t

/-- R136, R137: the two subtractions wrap, and `VF` is 1 exactly when the minuend is strictly greater,
both from the old values. Which write lands when `x = 15` is `VF_PRIORITY` (decision D7). -/
def Obligations.SubtractionsSetTheStrictComparison : Prop :=
  ∀ (x y : Reg) (s : State),
    (∃ t, exec (.subReg x y) s = .next t ∧
      ResultAndFlag x (((s.reg x).toNat + 256 - (s.reg y).toNat) % 256)
        (if (s.reg x).toNat > (s.reg y).toNat then 1 else 0) s t ∧
      OnlyRegs [x, vf] s t ∧ OnlyChanges [.regs] s t) ∧
    (∃ t, exec (.subnReg x y) s = .next t ∧
      ResultAndFlag x (((s.reg y).toNat + 256 - (s.reg x).toNat) % 256)
        (if (s.reg y).toNat > (s.reg x).toNat then 1 else 0) s t ∧
      OnlyRegs [x, vf] s t ∧ OnlyChanges [.regs] s t)

/-- R138, R139: the shifts are by one, logical, of `Vx` whatever `y` is, and `VF` is the bit shifted out
as the number 0 or 1. Which write lands when `x = 15` is `VF_PRIORITY` (decision D7); that `Vy` plays no
part is decision D19. -/
def Obligations.ShiftsMoveOneBitIntoTheFlag : Prop :=
  ∀ (x y : Reg) (s : State),
    (∃ t, exec (.shr x y) s = .next t ∧
      ResultAndFlag x ((s.reg x).toNat / 2) ((s.reg x).toNat % 2) s t ∧
      OnlyRegs [x, vf] s t ∧ OnlyChanges [.regs] s t) ∧
    (∃ t, exec (.shl x y) s = .next t ∧
      ResultAndFlag x ((s.reg x).toNat * 2 % 256) ((s.reg x).toNat / 128) s t ∧
      OnlyRegs [x, vf] s t ∧ OnlyChanges [.regs] s t)

/-- R133 to R135: the bitwise operations act bit by bit and write no flag. -/
def Obligations.BitwiseOperationsActOnEachBit : Prop :=
  ∀ (x y : Reg) (s : State),
    (∃ t, exec (.orReg x y) s = .next t ∧
      (∀ b, (t.reg x).getLsbD b = true ↔ (s.reg x).getLsbD b = true ∨ (s.reg y).getLsbD b = true) ∧
      OnlyRegs [x] s t ∧ OnlyChanges [.regs] s t) ∧
    (∃ t, exec (.andReg x y) s = .next t ∧
      (∀ b, (t.reg x).getLsbD b = true ↔ (s.reg x).getLsbD b = true ∧ (s.reg y).getLsbD b = true) ∧
      OnlyRegs [x] s t ∧ OnlyChanges [.regs] s t) ∧
    (∃ t, exec (.xorReg x y) s = .next t ∧
      (∀ b, (t.reg x).getLsbD b = true ↔ ((s.reg x).getLsbD b ≠ (s.reg y).getLsbD b)) ∧
      OnlyRegs [x] s t ∧ OnlyChanges [.regs] s t)

/-- R140 (the draw is a free value, log 3): `RND Vx, kk` keeps the bits of the draw where `kk` has a 1,
clears the others, does not depend on the old `Vx`, and the next execution has a draw of its own. -/
def Obligations.RandomMasksAFreshDraw : Prop :=
  ∀ (x : Reg) (kk : Byte) (s : State), ∃ t, exec (.rnd x kk) s = .next t ∧
    (∀ b, (t.reg x).getLsbD b = true ↔
      (Config.rand8 s.draws).getLsbD b = true ∧ kk.getLsbD b = true) ∧
    t.draws = s.draws + 1 ∧ OnlyRegs [x] s t ∧ OnlyChanges [.regs, .draws] s t

/-! ## Display -/

/-- R150: `CLS` leaves every one of the 2048 cells 0, as the host reads them, and changes nothing else. A
cell is held as a Boolean (the spec's decision D28). -/
def Obligations.ClearUnlightsEveryCell : Prop :=
  ∀ s : State, ∃ t, exec .cls s = .next t ∧ (∀ y x, t.displayPort y x = 0x00) ∧
    OnlyChanges [.disp] s t

/-- R151, R152, R153: `DRW Vx, Vy, n` toggles exactly the cells where `Place` puts a 1-bit of the sprite
(bit `7 - c` of the byte at `I + r` at column offset `c`, row offset `r`, from the origin `Vx mod 64`,
`Vy mod 32` of the old registers), and `VF` is 1 exactly when one of them was lit. The bit order is the
spec's decision D11, the edge policy its decision D10, that `I` does not move its decision D19. -/
def Obligations.DrawTogglesTheSpriteCells : Prop :=
  ∀ (x y : Reg) (n : Nibble) (s : State), ∃ t, exec (.drw x y n) s = .next t ∧
    (∀ p : Pixel, (t.disp.lit p ≠ s.disp.lit p) ↔
      ∃ r < n.toNat, ∃ c < 8, (s.readByte (s.effAddr r)).getLsbD (7 - c) = true ∧
        place s.cfg.drawEdge ((s.reg x).toNat % 64 + c) ((s.reg y).toNat % 32 + r) = some p) ∧
    (t.reg vf = 1 ↔ ∃ p : Pixel, s.disp.lit p = true ∧ t.disp.lit p = false) ∧
    (t.reg vf = 0 ↔ ¬ ∃ p : Pixel, s.disp.lit p = true ∧ t.disp.lit p = false) ∧
    OnlyRegs [vf] s t ∧ OnlyChanges [.disp, .regs] s t

/-- R153: inside the grid both edge policies put a pixel where it is; beyond the edge `wrap` reduces it
modulo the grid and `clip` drops it (the spec's decision D10). -/
def Obligations.EdgePoliciesPlacePixels : Prop :=
  ∀ px py : Nat,
    (∃ p, place .wrap px py = some p ∧ p.x.val = px % 64 ∧ p.y.val = py % 32) ∧
    (px ≤ 63 → py ≤ 31 → place .clip px py = place .wrap px py) ∧
    ((63 < px ∨ 31 < py) → place .clip px py = none)

/-- R154: two identical draws in a row at the same coordinates restore every cell; the second `VF` is 1
exactly when some touched cell was unlit before the first; the first changes as many cells as the sprite
has placed 1-bits; every cell the host reads is 0x00 or 0xFF. -/
def Obligations.DrawingTwiceRestoresTheGrid : Prop :=
  ∀ (x y : Reg) (n : Nibble) (s t u : State), exec (.drw x y n) s = .next t →
    t.reg x = s.reg x → t.reg y = s.reg y → exec (.drw x y n) t = .next u →
    (∀ p, u.disp.lit p = s.disp.lit p) ∧
    (u.reg vf = 1 ↔ ∃ p ∈ s.sprite x y n, s.disp.lit p = false) ∧
    (t.reg vf = 1 ↔ ∃ p : Pixel, s.disp.lit p = true ∧ t.disp.lit p = false) ∧
    (∃ l : List Pixel, l.Nodup ∧ (∀ p, p ∈ l ↔ t.disp.lit p ≠ s.disp.lit p) ∧
      l.length = (s.sprite x y n).length) ∧
    (∀ r c, t.displayPort r c = 0x00 ∨ t.displayPort r c = 0xFF)

/-! ## Keypad -/

/-- R160, R161, R163: the key skips test the level of the key that the register names, by its low four
bits under `KEY_INDEX_POLICY = mask4` (the spec's decision D12) and under either policy when it is at
most 15. That `pc` wraps at 65536 is the spec's decision D8. -/
def Obligations.KeySkipsTestTheNamedKey : Prop :=
  ∀ (x : Reg) (s : State) (k : Fin 16), k.val = (s.reg x).toNat % 16 →
    s.cfg.keyIndex = .mask4 ∨ (s.reg x).toNat ≤ 15 →
    (∃ t, exec (.skp x) s = .next t ∧ OnlyChanges [.pc] s t ∧
      t.pc.toNat = (s.pc.toNat + if s.key k = true then 2 else 0) % 65536) ∧
    (∃ t, exec (.sknp x) s = .next t ∧ OnlyChanges [.pc] s t ∧
      t.pc.toNat = (s.pc.toNat + if s.key k = true then 0 else 2) % 65536)

/-- R163: under `KEY_INDEX_POLICY = fault` a key skip with a register above 15 has no meaning. -/
def Obligations.KeySkipsRefuseAboveFifteenUnderFault : Prop :=
  ∀ (x : Reg) (s : State), s.cfg.keyIndex = .fault → 15 < (s.reg x).toNat →
    exec (.skp x) s = .refused .keyIndexAbove15 ∧ exec (.sknp x) s = .refused .keyIndexAbove15

/-- R162: `LD Vx, K` takes the lowest pressed key; with none pressed it only rewinds `pc` by 2
(modulo 65536: the spec's decision D8). -/
def Obligations.KeyWaitTakesTheLowestKeyOrRewinds : Prop :=
  EncodedAs 0xF0FF#16 0xF00A#16 (fun w => .ldVxK (fieldX w)) ∧
  ∀ (x : Reg) (s : State),
    (∀ k : Fin 16, s.key k = true → (∀ j < k, s.key j = false) →
      ∃ t, exec (.ldVxK x) s = .next t ∧ (t.reg x).toNat = k.val ∧ OnlyRegs [x] s t ∧
        OnlyChanges [.regs] s t) ∧
    ((∀ k, s.key k = false) → ∃ t, exec (.ldVxK x) s = .next t ∧
      t.pc.toNat = (s.pc.toNat + 65536 - 2) % 65536 ∧ OnlyChanges [.pc] s t)

/-- R164: a step of the key wait with no key pressed leaves everything, `pc` included, but the timers,
which tick (the spec's decision D20); the state it leaves waits again. -/
def Obligations.WaitingStepOnlyTicks : Prop :=
  ∀ (s : State) (x : Reg), s.err = .none → decode s.cfg s.fetchWord = .ldVxK x →
    (∀ k, s.key k = false) →
    ∃ t, step s = .next t ∧ OnlyChanges [.dt, .st] s t ∧
      t.dt.toNat = s.dt.toNat - 1 ∧ t.st.toNat = s.st.toNat - 1 ∧
      decode t.cfg t.fetchWord = .ldVxK x

/-! ## Fallback -/

/-- R170: the handler of the fallback changes nothing; a step whose word matches no row of the opcode map
advances `pc` by 2, ticks the timers, and changes nothing else. The numbers of 29 rows are the spec's
decision D3 (log 13), the tick of such a step its decision D20. -/
def Obligations.FallbackOnlyAdvancesAndTicks : Prop :=
  (∀ (raw : Word) (s : State), exec (.nop raw) s = .next s) ∧
  ∀ s : State, s.err = .none → s.cfg = Config.default →
    (∀ r ∈ opcodeMap, r.selects s.fetchWord = false) →
    ∃ t, step s = .next t ∧ t.pc.toNat = (s.pc.toNat + 2) % 65536 ∧
      t.dt.toNat = s.dt.toNat - 1 ∧ t.st.toNat = s.st.toNat - 1 ∧
      OnlyChanges [.pc, .dt, .st] s t

/-! ## The key update -/

/-- R27, R35 (2): the host's key update writes the sixteen key states and changes nothing else (that it
may hit a halted core is the model's choice, log 24); every key instruction then reads what was written. -/
def Obligations.KeyUpdateWritesTheKeysAlone : Prop :=
  ∀ (s : State) (k : Vector Bool 16),
    (∀ j : Fin 16, (s.setKeys k).key j = k[j]) ∧ OnlyChanges [.keys] s (s.setKeys k) ∧
    (∀ (x : Reg) (j : Fin 16), k[j] = true → (∀ l < j, k[l] = false) →
      ∃ t, exec (.ldVxK x) (s.setKeys k) = .next t ∧ (t.reg x).toNat = j.val)
end

