-- ==== Sys2Proof/Laws/Fields.lean ====
section
/-! SUPPORT. The fields of a word put together from its fields (spec/30_encoding.md R71). -/

namespace Sys2Proof

@[simp] theorem regOfBits_bitsOfReg (r : Reg) : regOfBits (bitsOfReg r) = r := rfl

@[simp] theorem bitsOfReg_regOfBits (b : Nibble) : bitsOfReg (regOfBits b) = b := rfl

/-! ## The fields of `t x y n` -/

@[simp] theorem fieldT_wordTXYN (t x y n : Nibble) : fieldT (wordTXYN t x y n) = t := by
  ext i h; simp [fieldT, wordTXYN]; grind

@[simp] theorem fieldXBits_wordTXYN (t x y n : Nibble) : fieldXBits (wordTXYN t x y n) = x := by
  ext i h; simp [fieldXBits, wordTXYN]; grind

@[simp] theorem fieldYBits_wordTXYN (t x y n : Nibble) : fieldYBits (wordTXYN t x y n) = y := by
  ext i h; simp [fieldYBits, wordTXYN]; grind

@[simp] theorem fieldN_wordTXYN (t x y n : Nibble) : fieldN (wordTXYN t x y n) = n := by
  ext i h; simp [fieldN, wordTXYN]; grind

@[simp] theorem fieldX_wordTXYN (t x y n : Nibble) : fieldX (wordTXYN t x y n) = regOfBits x := by
  simp [fieldX]

@[simp] theorem fieldY_wordTXYN (t x y n : Nibble) : fieldY (wordTXYN t x y n) = regOfBits y := by
  simp [fieldY]

/-! ## The fields of `t x kk` -/

@[simp] theorem fieldT_wordTXKK (t x : Nibble) (kk : Byte) : fieldT (wordTXKK t x kk) = t := by
  ext i h; simp [fieldT, wordTXKK]; grind

@[simp] theorem fieldXBits_wordTXKK (t x : Nibble) (kk : Byte) :
    fieldXBits (wordTXKK t x kk) = x := by
  ext i h; simp [fieldXBits, wordTXKK]; grind

@[simp] theorem fieldX_wordTXKK (t x : Nibble) (kk : Byte) :
    fieldX (wordTXKK t x kk) = regOfBits x := by
  simp [fieldX]

@[simp] theorem fieldKK_wordTXKK (t x : Nibble) (kk : Byte) : fieldKK (wordTXKK t x kk) = kk := by
  ext i h; simp [fieldKK, wordTXKK]; grind

/-- The low nibble of `t x kk` is that of `kk`. -/
@[simp] theorem fieldN_wordTXKK (t x : Nibble) (kk : Byte) :
    fieldN (wordTXKK t x kk) = kk.extractLsb' 0 4 := by
  ext i h; simp [fieldN, wordTXKK]; grind

/-! ## The fields of `t nnn` -/

@[simp] theorem fieldT_wordTNNN (t : Nibble) (nnn : Addr) : fieldT (wordTNNN t nnn) = t := by
  ext i h; simp [fieldT, wordTNNN]; grind

@[simp] theorem fieldNNN_wordTNNN (t : Nibble) (nnn : Addr) : fieldNNN (wordTNNN t nnn) = nnn := by
  ext i h; simp [fieldNNN, wordTNNN]; grind

/-! ## A word is made of its fields -/

/-- A word is its four nibbles. -/
theorem wordTXYN_fields (w : Word) :
    wordTXYN (fieldT w) (fieldXBits w) (fieldYBits w) (fieldN w) = w := by
  ext i h; simp [fieldT, fieldXBits, fieldYBits, fieldN, wordTXYN]; grind

/-- A word is its top nibbles and its low byte. -/
theorem wordTXKK_fields (w : Word) : wordTXKK (fieldT w) (fieldXBits w) (fieldKK w) = w := by
  ext i h; simp [fieldT, fieldXBits, fieldKK, wordTXKK]; grind

/-- A word is its top nibble and its address field. -/
theorem wordTNNN_fields (w : Word) : wordTNNN (fieldT w) (fieldNNN w) = w := by
  ext i h; simp [fieldT, fieldNNN, wordTNNN]; grind

/-! ## A word and its bytes (R53) -/

@[simp] theorem hiByte_wordOfBytes (a b : Byte) : hiByte (wordOfBytes a b) = a := by
  ext i h; simp [hiByte, wordOfBytes]; grind

@[simp] theorem loByte_wordOfBytes (a b : Byte) : loByte (wordOfBytes a b) = b := by
  ext i h; simp [loByte, wordOfBytes]; grind

@[simp] theorem wordOfBytes_bytes (w : Word) : wordOfBytes (hiByte w) (loByte w) = w := by
  ext i h; simp [hiByte, loByte, wordOfBytes]; grind

/-- The value of a word from its bytes (R53: `MEM[pc] * 256 + MEM[pc + 1]`). -/
theorem wordOfBytes_toNat (a b : Byte) : (wordOfBytes a b).toNat = a.toNat * 256 + b.toNat := by
  have := a.isLt; have := b.isLt
  simp only [wordOfBytes, BitVec.toNat_append, Nat.shiftLeft_eq]
  rw [← Nat.shiftLeft_eq, ← Nat.shiftLeft_add_eq_or_of_lt (by omega), Nat.shiftLeft_eq]

/-! ## The masks of the opcode map (R76) -/

theorem and_maskT (w : Word) : w &&& 0xF000#16 = wordTXYN (fieldT w) 0#4 0#4 0#4 := by
  ext i h
  interval_cases i <;> simp [wordTXYN, fieldT] <;> grind

theorem and_maskTN (w : Word) : w &&& 0xF00F#16 = wordTXYN (fieldT w) 0#4 0#4 (fieldN w) := by
  ext i h
  interval_cases i <;> simp [wordTXYN, fieldT, fieldN] <;> grind

theorem and_maskTKK (w : Word) : w &&& 0xF0FF#16 = wordTXKK (fieldT w) 0#4 (fieldKK w) := by
  ext i h
  interval_cases i <;> simp [wordTXKK, fieldT, fieldKK] <;> grind

end Sys2Proof
end

