-- ==== Sys2Proof/Laws/Decode.lean ====
section
/-! SUPPORT. The decoder seen through the masks of the opcode map (spec/30_encoding.md R75, R76). -/

namespace Sys2Proof

/-- A word with the top nibble `k`. -/
theorem fieldT_of_mask {w : Word} {k : Nibble} (h : w &&& 0xF000#16 = wordTXYN k 0#4 0#4 0#4) :
    fieldT w = k := by
  rw [and_maskT] at h
  simpa using congrArg fieldT h

/-- A word with the top nibble `k` and the low nibble `n`. -/
theorem fields_of_maskTN {w : Word} {k n : Nibble} (h : w &&& 0xF00F#16 = wordTXYN k 0#4 0#4 n) :
    fieldT w = k ∧ fieldN w = n := by
  rw [and_maskTN] at h
  exact ⟨by simpa using congrArg fieldT h, by simpa using congrArg fieldN h⟩

/-- A word with the top nibble `k` and the low byte `b`. -/
theorem fields_of_maskTKK {w : Word} {k : Nibble} {b : Byte}
    (h : w &&& 0xF0FF#16 = wordTXKK k 0#4 b) : fieldT w = k ∧ fieldKK w = b := by
  rw [and_maskTKK] at h
  exact ⟨by simpa using congrArg fieldT h, by simpa using congrArg fieldKK h⟩

end Sys2Proof
end

