-- ==== Sys2Proof/Laws/Memory.lean ====
section
/-! SUPPORT. Memory as a list of cells: a read after a write, and the canonical form
(spec/20_memory.md R56, R61). The read and write laws hold of every list, canonical or not. -/

namespace Sys2Proof.Machine.Memory

variable (bg : Nat → Byte)

/-! ## Reads -/

@[simp] theorem read_nil (a : Nat) : read bg [] a = bg a := rfl

@[simp] theorem erase_nil (a : Nat) : erase [] a = [] := rfl

theorem erase_cons (k : Nat) (v : Byte) (m : List Host.Cell) (a : Nat) :
    erase ((k, v) :: m) a = if k = a then erase m a else (k, v) :: erase m a := by
  by_cases h : k = a <;> simp [erase, h]

theorem read_erase_same (m : List Host.Cell) (a : Nat) : read bg (erase m a) a = bg a := by
  induction m with
  | nil => rfl
  | cons c m ih =>
    obtain ⟨k, v⟩ := c
    by_cases h : k = a <;> simp [erase_cons, read, h, ih]

theorem read_erase_other (m : List Host.Cell) {a a' : Nat} (h : a' ≠ a) :
    read bg (erase m a) a' = read bg m a' := by
  induction m with
  | nil => rfl
  | cons c m ih =>
    obtain ⟨k, v⟩ := c
    by_cases hk : k = a
    · simp [erase_cons, read, hk, ih, Ne.symm h]
    · simp [erase_cons, read, hk, ih]

theorem read_insert_same (m : List Host.Cell) (a : Nat) (b : Byte) (hm : ∀ c ∈ m, c.1 ≠ a) :
    read bg (insert a b m) a = b := by
  induction m with
  | nil => simp [insert, read]
  | cons c m ih =>
    obtain ⟨k, v⟩ := c
    have hk : k ≠ a := hm (k, v) (by simp)
    have ih := ih fun c hc => hm c (by simp [hc])
    by_cases h : a < k <;> simp [insert, read, h, hk, ih]

theorem read_insert_other (m : List Host.Cell) {a a' : Nat} (b : Byte) (h : a' ≠ a) :
    read bg (insert a b m) a' = read bg m a' := by
  induction m with
  | nil => simp [insert, read, Ne.symm h]
  | cons c m ih =>
    obtain ⟨k, v⟩ := c
    by_cases hk : a < k <;> simp [insert, read, hk, ih, Ne.symm h]

theorem mem_erase {m : List Host.Cell} {a : Nat} {c : Host.Cell} :
    c ∈ erase m a ↔ c ∈ m ∧ c.1 ≠ a := by
  simp [erase]

/-- A read of the byte just written gives it. -/
theorem read_write_same (m : List Host.Cell) (a : Nat) (b : Byte) :
    read bg (write bg m a b) a = b := by
  unfold write
  split
  · next h => rw [read_erase_same, h]
  · exact read_insert_same bg _ a b fun c hc => (mem_erase.mp hc).2

/-- A write leaves every other byte alone. -/
theorem read_write_other (m : List Host.Cell) {a a' : Nat} (b : Byte) (h : a' ≠ a) :
    read bg (write bg m a b) a' = read bg m a' := by
  unfold write
  split
  · exact read_erase_other bg m h
  · rw [read_insert_other bg _ b h, read_erase_other bg m h]

/-! ## The canonical form -/

theorem wf_nil : wf bg [] := by simp [wf]

theorem mem_insert {m : List Host.Cell} {a : Nat} {b : Byte} {c : Host.Cell} :
    c ∈ insert a b m ↔ c = (a, b) ∨ c ∈ m := by
  induction m with
  | nil => simp [insert]
  | cons d m ih =>
    obtain ⟨k, v⟩ := d
    by_cases h : a < k <;> simp only [insert, h, if_true, if_false, List.mem_cons, ih]
    tauto

theorem wf_erase {m : List Host.Cell} (a : Nat) (h : wf bg m) : wf bg (erase m a) :=
  ⟨h.1.sublist (List.Sublist.map _ List.filter_sublist), fun c hc => h.2 c (mem_erase.mp hc).1⟩

theorem rising_insert {m : List Host.Cell} (a : Nat) (b : Byte)
    (hm : (m.map Prod.fst).Pairwise (· < ·)) (ha : ∀ c ∈ m, c.1 ≠ a) :
    ((insert a b m).map Prod.fst).Pairwise (· < ·) := by
  induction m with
  | nil => simp [insert]
  | cons d m ih =>
    obtain ⟨k, v⟩ := d
    have hk : k ≠ a := ha (k, v) (by simp)
    simp only [List.map_cons, List.pairwise_cons] at hm
    by_cases h : a < k
    · simp only [insert, h, if_true, List.map_cons, List.pairwise_cons, List.mem_cons]
      refine ⟨?_, hm.1, hm.2⟩
      rintro x (rfl | hx)
      · exact h
      · exact h.trans (hm.1 x hx)
    · simp only [insert, h, if_false, List.map_cons, List.pairwise_cons]
      refine ⟨?_, ih hm.2 fun c hc => ha c (by simp [hc])⟩
      intro x hx
      obtain ⟨c, hc, rfl⟩ := List.mem_map.mp hx
      rcases mem_insert.mp hc with rfl | hc
      · show k < a
        omega
      · exact hm.1 _ (List.mem_map_of_mem hc)

/-- A write keeps the canonical form. -/
theorem wf_write {m : List Host.Cell} {a : Nat} (b : Byte) (ha : a < memSize) (h : wf bg m) :
    wf bg (write bg m a b) := by
  have he := wf_erase bg a h
  unfold write
  split
  · exact he
  · next hb =>
    refine ⟨rising_insert a b he.1 fun c hc => (mem_erase.mp hc).2, fun c hc => ?_⟩
    rcases mem_insert.mp hc with rfl | hc
    · exact ⟨ha, hb⟩
    · exact he.2 c hc

/-- Whatever list it is given, `canonical` answers one in the canonical form. -/
theorem wf_canonical (m : List Host.Cell) : wf bg (canonical bg m) := by
  induction m with
  | nil => exact wf_nil bg
  | cons c m ih => exact wf_write bg c.2 (Nat.mod_lt _ (by decide)) ih

/-- The lowest address of a canonical list is put back in front of the rest. -/
theorem write_front {m : List Host.Cell} {c : Host.Cell} (h : wf bg (c :: m)) :
    write bg m c.1 c.2 = c :: m := by
  obtain ⟨hp, hm⟩ := h
  rw [List.map_cons, List.pairwise_cons] at hp
  have hlt : ∀ d ∈ m, c.1 < d.1 := fun d hd => hp.1 _ (List.mem_map_of_mem hd)
  have he : erase m c.1 = m := by
    refine List.filter_eq_self.mpr fun d hd => ?_
    simpa using (hlt d hd).ne'
  rw [write, if_neg (hm c (by simp)).2, he]
  cases m with
  | nil => rfl
  | cons d m => exact if_pos (hlt d (by simp))

/-- A list in the canonical form is left as it is. -/
theorem canonical_of_wf {m : List Host.Cell} (h : wf bg m) : canonical bg m = m := by
  induction m with
  | nil => rfl
  | cons c m ih =>
    have hr : wf bg m := ⟨(List.pairwise_cons.mp h.1).2, fun d hd => h.2 d (by simp [hd])⟩
    show write bg (canonical bg m) (c.1 % memSize) c.2 = _
    rw [ih hr, Nat.mod_eq_of_lt (h.2 c (by simp)).1, write_front bg h]

end Sys2Proof.Machine.Memory
end

