-- ==== Sys2Proof/Laws/State.lean ====
section
/-! SUPPORT. What each update of State does to each field, true by definition, so that no later proof
unfolds a record update. -/

namespace Sys2Proof.Machine.State

variable (s : State)

/-! ## setPc -/

@[simp] theorem setPc_cfg (target : Word) : (s.setPc target).cfg = s.cfg := rfl

@[simp] theorem setPc_v (target : Word) : (s.setPc target).v = s.v := rfl

@[simp] theorem setPc_idx (target : Word) : (s.setPc target).idx = s.idx := rfl

@[simp] theorem setPc_pc (target : Word) : (s.setPc target).pc = target := rfl

@[simp] theorem setPc_dt (target : Word) : (s.setPc target).dt = s.dt := rfl

@[simp] theorem setPc_st (target : Word) : (s.setPc target).st = s.st := rfl

@[simp] theorem setPc_stk (target : Word) : (s.setPc target).stk = s.stk := rfl

@[simp] theorem setPc_keys (target : Word) : (s.setPc target).keys = s.keys := rfl

@[simp] theorem setPc_disp (target : Word) : (s.setPc target).disp = s.disp := rfl

@[simp] theorem setPc_mem (target : Word) : (s.setPc target).mem = s.mem := rfl

@[simp] theorem setPc_err (target : Word) : (s.setPc target).err = s.err := rfl

@[simp] theorem setPc_draws (target : Word) : (s.setPc target).draws = s.draws := rfl

/-! ## advance -/

@[simp] theorem advance_cfg : s.advance.cfg = s.cfg := rfl

@[simp] theorem advance_v : s.advance.v = s.v := rfl

@[simp] theorem advance_idx : s.advance.idx = s.idx := rfl

@[simp] theorem advance_pc : s.advance.pc = s.pc + 2#16 := rfl

@[simp] theorem advance_dt : s.advance.dt = s.dt := rfl

@[simp] theorem advance_st : s.advance.st = s.st := rfl

@[simp] theorem advance_stk : s.advance.stk = s.stk := rfl

@[simp] theorem advance_keys : s.advance.keys = s.keys := rfl

@[simp] theorem advance_disp : s.advance.disp = s.disp := rfl

@[simp] theorem advance_mem : s.advance.mem = s.mem := rfl

@[simp] theorem advance_err : s.advance.err = s.err := rfl

@[simp] theorem advance_draws : s.advance.draws = s.draws := rfl

/-! ## rewind -/

@[simp] theorem rewind_cfg : s.rewind.cfg = s.cfg := rfl

@[simp] theorem rewind_v : s.rewind.v = s.v := rfl

@[simp] theorem rewind_idx : s.rewind.idx = s.idx := rfl

@[simp] theorem rewind_pc : s.rewind.pc = s.pc - 2#16 := rfl

@[simp] theorem rewind_dt : s.rewind.dt = s.dt := rfl

@[simp] theorem rewind_st : s.rewind.st = s.st := rfl

@[simp] theorem rewind_stk : s.rewind.stk = s.stk := rfl

@[simp] theorem rewind_keys : s.rewind.keys = s.keys := rfl

@[simp] theorem rewind_disp : s.rewind.disp = s.disp := rfl

@[simp] theorem rewind_mem : s.rewind.mem = s.mem := rfl

@[simp] theorem rewind_err : s.rewind.err = s.err := rfl

@[simp] theorem rewind_draws : s.rewind.draws = s.draws := rfl

/-! ## setIdx -/

@[simp] theorem setIdx_cfg (w : Word) : (s.setIdx w).cfg = s.cfg := rfl

@[simp] theorem setIdx_v (w : Word) : (s.setIdx w).v = s.v := rfl

@[simp] theorem setIdx_idx (w : Word) : (s.setIdx w).idx = w := rfl

@[simp] theorem setIdx_pc (w : Word) : (s.setIdx w).pc = s.pc := rfl

@[simp] theorem setIdx_dt (w : Word) : (s.setIdx w).dt = s.dt := rfl

@[simp] theorem setIdx_st (w : Word) : (s.setIdx w).st = s.st := rfl

@[simp] theorem setIdx_stk (w : Word) : (s.setIdx w).stk = s.stk := rfl

@[simp] theorem setIdx_keys (w : Word) : (s.setIdx w).keys = s.keys := rfl

@[simp] theorem setIdx_disp (w : Word) : (s.setIdx w).disp = s.disp := rfl

@[simp] theorem setIdx_mem (w : Word) : (s.setIdx w).mem = s.mem := rfl

@[simp] theorem setIdx_err (w : Word) : (s.setIdx w).err = s.err := rfl

@[simp] theorem setIdx_draws (w : Word) : (s.setIdx w).draws = s.draws := rfl

/-! ## raise -/

@[simp] theorem raise_cfg (e : ErrorCode) : (s.raise e).cfg = s.cfg := rfl

@[simp] theorem raise_v (e : ErrorCode) : (s.raise e).v = s.v := rfl

@[simp] theorem raise_idx (e : ErrorCode) : (s.raise e).idx = s.idx := rfl

@[simp] theorem raise_pc (e : ErrorCode) : (s.raise e).pc = s.pc := rfl

@[simp] theorem raise_dt (e : ErrorCode) : (s.raise e).dt = s.dt := rfl

@[simp] theorem raise_st (e : ErrorCode) : (s.raise e).st = s.st := rfl

@[simp] theorem raise_stk (e : ErrorCode) : (s.raise e).stk = s.stk := rfl

@[simp] theorem raise_keys (e : ErrorCode) : (s.raise e).keys = s.keys := rfl

@[simp] theorem raise_disp (e : ErrorCode) : (s.raise e).disp = s.disp := rfl

@[simp] theorem raise_mem (e : ErrorCode) : (s.raise e).mem = s.mem := rfl

@[simp] theorem raise_err (e : ErrorCode) : (s.raise e).err = e := rfl

@[simp] theorem raise_draws (e : ErrorCode) : (s.raise e).draws = s.draws := rfl

/-! ## push -/

@[simp] theorem push_cfg (a : Word) : (s.push a).cfg = s.cfg := rfl

@[simp] theorem push_v (a : Word) : (s.push a).v = s.v := rfl

@[simp] theorem push_idx (a : Word) : (s.push a).idx = s.idx := rfl

@[simp] theorem push_pc (a : Word) : (s.push a).pc = s.pc := rfl

@[simp] theorem push_dt (a : Word) : (s.push a).dt = s.dt := rfl

@[simp] theorem push_st (a : Word) : (s.push a).st = s.st := rfl

@[simp] theorem push_stk (a : Word) : (s.push a).stk = a :: s.stk := rfl

@[simp] theorem push_keys (a : Word) : (s.push a).keys = s.keys := rfl

@[simp] theorem push_disp (a : Word) : (s.push a).disp = s.disp := rfl

@[simp] theorem push_mem (a : Word) : (s.push a).mem = s.mem := rfl

@[simp] theorem push_err (a : Word) : (s.push a).err = s.err := rfl

@[simp] theorem push_draws (a : Word) : (s.push a).draws = s.draws := rfl

/-! ## setDt -/

@[simp] theorem setDt_cfg (b : Byte) : (s.setDt b).cfg = s.cfg := rfl

@[simp] theorem setDt_v (b : Byte) : (s.setDt b).v = s.v := rfl

@[simp] theorem setDt_idx (b : Byte) : (s.setDt b).idx = s.idx := rfl

@[simp] theorem setDt_pc (b : Byte) : (s.setDt b).pc = s.pc := rfl

@[simp] theorem setDt_dt (b : Byte) : (s.setDt b).dt = b := rfl

@[simp] theorem setDt_st (b : Byte) : (s.setDt b).st = s.st := rfl

@[simp] theorem setDt_stk (b : Byte) : (s.setDt b).stk = s.stk := rfl

@[simp] theorem setDt_keys (b : Byte) : (s.setDt b).keys = s.keys := rfl

@[simp] theorem setDt_disp (b : Byte) : (s.setDt b).disp = s.disp := rfl

@[simp] theorem setDt_mem (b : Byte) : (s.setDt b).mem = s.mem := rfl

@[simp] theorem setDt_err (b : Byte) : (s.setDt b).err = s.err := rfl

@[simp] theorem setDt_draws (b : Byte) : (s.setDt b).draws = s.draws := rfl

/-! ## setSt -/

@[simp] theorem setSt_cfg (b : Byte) : (s.setSt b).cfg = s.cfg := rfl

@[simp] theorem setSt_v (b : Byte) : (s.setSt b).v = s.v := rfl

@[simp] theorem setSt_idx (b : Byte) : (s.setSt b).idx = s.idx := rfl

@[simp] theorem setSt_pc (b : Byte) : (s.setSt b).pc = s.pc := rfl

@[simp] theorem setSt_dt (b : Byte) : (s.setSt b).dt = s.dt := rfl

@[simp] theorem setSt_st (b : Byte) : (s.setSt b).st = b := rfl

@[simp] theorem setSt_stk (b : Byte) : (s.setSt b).stk = s.stk := rfl

@[simp] theorem setSt_keys (b : Byte) : (s.setSt b).keys = s.keys := rfl

@[simp] theorem setSt_disp (b : Byte) : (s.setSt b).disp = s.disp := rfl

@[simp] theorem setSt_mem (b : Byte) : (s.setSt b).mem = s.mem := rfl

@[simp] theorem setSt_err (b : Byte) : (s.setSt b).err = s.err := rfl

@[simp] theorem setSt_draws (b : Byte) : (s.setSt b).draws = s.draws := rfl

/-! ## tick -/

@[simp] theorem tick_cfg : s.tick.cfg = s.cfg := rfl

@[simp] theorem tick_v : s.tick.v = s.v := rfl

@[simp] theorem tick_idx : s.tick.idx = s.idx := rfl

@[simp] theorem tick_pc : s.tick.pc = s.pc := rfl

@[simp] theorem tick_dt : s.tick.dt = tickTimer s.dt := rfl

@[simp] theorem tick_st : s.tick.st = tickTimer s.st := rfl

@[simp] theorem tick_stk : s.tick.stk = s.stk := rfl

@[simp] theorem tick_keys : s.tick.keys = s.keys := rfl

@[simp] theorem tick_disp : s.tick.disp = s.disp := rfl

@[simp] theorem tick_mem : s.tick.mem = s.mem := rfl

@[simp] theorem tick_err : s.tick.err = s.err := rfl

@[simp] theorem tick_draws : s.tick.draws = s.draws := rfl

/-! ## setDisp -/

@[simp] theorem setDisp_cfg (d : Display) : (s.setDisp d).cfg = s.cfg := rfl

@[simp] theorem setDisp_v (d : Display) : (s.setDisp d).v = s.v := rfl

@[simp] theorem setDisp_idx (d : Display) : (s.setDisp d).idx = s.idx := rfl

@[simp] theorem setDisp_pc (d : Display) : (s.setDisp d).pc = s.pc := rfl

@[simp] theorem setDisp_dt (d : Display) : (s.setDisp d).dt = s.dt := rfl

@[simp] theorem setDisp_st (d : Display) : (s.setDisp d).st = s.st := rfl

@[simp] theorem setDisp_stk (d : Display) : (s.setDisp d).stk = s.stk := rfl

@[simp] theorem setDisp_keys (d : Display) : (s.setDisp d).keys = s.keys := rfl

@[simp] theorem setDisp_disp (d : Display) : (s.setDisp d).disp = d := rfl

@[simp] theorem setDisp_mem (d : Display) : (s.setDisp d).mem = s.mem := rfl

@[simp] theorem setDisp_err (d : Display) : (s.setDisp d).err = s.err := rfl

@[simp] theorem setDisp_draws (d : Display) : (s.setDisp d).draws = s.draws := rfl

/-! ## consumeDraw -/

@[simp] theorem consumeDraw_cfg : s.consumeDraw.cfg = s.cfg := rfl

@[simp] theorem consumeDraw_v : s.consumeDraw.v = s.v := rfl

@[simp] theorem consumeDraw_idx : s.consumeDraw.idx = s.idx := rfl

@[simp] theorem consumeDraw_pc : s.consumeDraw.pc = s.pc := rfl

@[simp] theorem consumeDraw_dt : s.consumeDraw.dt = s.dt := rfl

@[simp] theorem consumeDraw_st : s.consumeDraw.st = s.st := rfl

@[simp] theorem consumeDraw_stk : s.consumeDraw.stk = s.stk := rfl

@[simp] theorem consumeDraw_keys : s.consumeDraw.keys = s.keys := rfl

@[simp] theorem consumeDraw_disp : s.consumeDraw.disp = s.disp := rfl

@[simp] theorem consumeDraw_mem : s.consumeDraw.mem = s.mem := rfl

@[simp] theorem consumeDraw_err : s.consumeDraw.err = s.err := rfl

@[simp] theorem consumeDraw_draws : s.consumeDraw.draws = s.draws + 1 := rfl

/-! ## setReg -/

@[simp] theorem setReg_cfg (r : Reg) (b : Byte) : (s.setReg r b).cfg = s.cfg := rfl

@[simp] theorem setReg_v (r : Reg) (b : Byte) : (s.setReg r b).v = s.v.set r b := rfl

@[simp] theorem setReg_idx (r : Reg) (b : Byte) : (s.setReg r b).idx = s.idx := rfl

@[simp] theorem setReg_pc (r : Reg) (b : Byte) : (s.setReg r b).pc = s.pc := rfl

@[simp] theorem setReg_dt (r : Reg) (b : Byte) : (s.setReg r b).dt = s.dt := rfl

@[simp] theorem setReg_st (r : Reg) (b : Byte) : (s.setReg r b).st = s.st := rfl

@[simp] theorem setReg_stk (r : Reg) (b : Byte) : (s.setReg r b).stk = s.stk := rfl

@[simp] theorem setReg_keys (r : Reg) (b : Byte) : (s.setReg r b).keys = s.keys := rfl

@[simp] theorem setReg_disp (r : Reg) (b : Byte) : (s.setReg r b).disp = s.disp := rfl

@[simp] theorem setReg_mem (r : Reg) (b : Byte) : (s.setReg r b).mem = s.mem := rfl

@[simp] theorem setReg_err (r : Reg) (b : Byte) : (s.setReg r b).err = s.err := rfl

@[simp] theorem setReg_draws (r : Reg) (b : Byte) : (s.setReg r b).draws = s.draws := rfl

/-! ## writeByte -/

@[simp] theorem writeByte_cfg (a : Word) (b : Byte) : (s.writeByte a b).cfg = s.cfg := rfl

@[simp] theorem writeByte_v (a : Word) (b : Byte) : (s.writeByte a b).v = s.v := rfl

@[simp] theorem writeByte_idx (a : Word) (b : Byte) : (s.writeByte a b).idx = s.idx := rfl

@[simp] theorem writeByte_pc (a : Word) (b : Byte) : (s.writeByte a b).pc = s.pc := rfl

@[simp] theorem writeByte_dt (a : Word) (b : Byte) : (s.writeByte a b).dt = s.dt := rfl

@[simp] theorem writeByte_st (a : Word) (b : Byte) : (s.writeByte a b).st = s.st := rfl

@[simp] theorem writeByte_stk (a : Word) (b : Byte) : (s.writeByte a b).stk = s.stk := rfl

@[simp] theorem writeByte_keys (a : Word) (b : Byte) : (s.writeByte a b).keys = s.keys := rfl

@[simp] theorem writeByte_disp (a : Word) (b : Byte) : (s.writeByte a b).disp = s.disp := rfl

@[simp] theorem writeByte_mem (a : Word) (b : Byte) : (s.writeByte a b).mem = Memory.write (resetByte s.cfg) s.mem (maskAddr a) b := rfl

@[simp] theorem writeByte_err (a : Word) (b : Byte) : (s.writeByte a b).err = s.err := rfl

@[simp] theorem writeByte_draws (a : Word) (b : Byte) : (s.writeByte a b).draws = s.draws := rfl

/-! ## setKeys -/

@[simp] theorem setKeys_cfg (k : Vector Bool 16) : (s.setKeys k).cfg = s.cfg := rfl

@[simp] theorem setKeys_v (k : Vector Bool 16) : (s.setKeys k).v = s.v := rfl

@[simp] theorem setKeys_idx (k : Vector Bool 16) : (s.setKeys k).idx = s.idx := rfl

@[simp] theorem setKeys_pc (k : Vector Bool 16) : (s.setKeys k).pc = s.pc := rfl

@[simp] theorem setKeys_dt (k : Vector Bool 16) : (s.setKeys k).dt = s.dt := rfl

@[simp] theorem setKeys_st (k : Vector Bool 16) : (s.setKeys k).st = s.st := rfl

@[simp] theorem setKeys_stk (k : Vector Bool 16) : (s.setKeys k).stk = s.stk := rfl

@[simp] theorem setKeys_keys (k : Vector Bool 16) : (s.setKeys k).keys = k := rfl

@[simp] theorem setKeys_disp (k : Vector Bool 16) : (s.setKeys k).disp = s.disp := rfl

@[simp] theorem setKeys_mem (k : Vector Bool 16) : (s.setKeys k).mem = s.mem := rfl

@[simp] theorem setKeys_err (k : Vector Bool 16) : (s.setKeys k).err = s.err := rfl

@[simp] theorem setKeys_draws (k : Vector Bool 16) : (s.setKeys k).draws = s.draws := rfl

/-! ## skipIf -/

@[simp] theorem skipIf_cfg (c : Bool) : (s.skipIf c).cfg = s.cfg := by cases c <;> rfl

@[simp] theorem skipIf_v (c : Bool) : (s.skipIf c).v = s.v := by cases c <;> rfl

@[simp] theorem skipIf_idx (c : Bool) : (s.skipIf c).idx = s.idx := by cases c <;> rfl

@[simp] theorem skipIf_pc (c : Bool) : (s.skipIf c).pc = if c then s.pc + 2#16 else s.pc := by
  cases c <;> rfl

@[simp] theorem skipIf_dt (c : Bool) : (s.skipIf c).dt = s.dt := by cases c <;> rfl

@[simp] theorem skipIf_st (c : Bool) : (s.skipIf c).st = s.st := by cases c <;> rfl

@[simp] theorem skipIf_stk (c : Bool) : (s.skipIf c).stk = s.stk := by cases c <;> rfl

@[simp] theorem skipIf_keys (c : Bool) : (s.skipIf c).keys = s.keys := by cases c <;> rfl

@[simp] theorem skipIf_disp (c : Bool) : (s.skipIf c).disp = s.disp := by cases c <;> rfl

@[simp] theorem skipIf_mem (c : Bool) : (s.skipIf c).mem = s.mem := by cases c <;> rfl

@[simp] theorem skipIf_err (c : Bool) : (s.skipIf c).err = s.err := by cases c <;> rfl

@[simp] theorem skipIf_draws (c : Bool) : (s.skipIf c).draws = s.draws := by cases c <;> rfl

/-! ## loadBlock -/

@[simp] theorem loadBlock_cfg (x : Reg) : (s.loadBlock x).cfg = s.cfg := rfl

@[simp] theorem loadBlock_idx (x : Reg) : (s.loadBlock x).idx = s.idx := rfl

@[simp] theorem loadBlock_pc (x : Reg) : (s.loadBlock x).pc = s.pc := rfl

@[simp] theorem loadBlock_dt (x : Reg) : (s.loadBlock x).dt = s.dt := rfl

@[simp] theorem loadBlock_st (x : Reg) : (s.loadBlock x).st = s.st := rfl

@[simp] theorem loadBlock_stk (x : Reg) : (s.loadBlock x).stk = s.stk := rfl

@[simp] theorem loadBlock_keys (x : Reg) : (s.loadBlock x).keys = s.keys := rfl

@[simp] theorem loadBlock_disp (x : Reg) : (s.loadBlock x).disp = s.disp := rfl

@[simp] theorem loadBlock_mem (x : Reg) : (s.loadBlock x).mem = s.mem := rfl

@[simp] theorem loadBlock_err (x : Reg) : (s.loadBlock x).err = s.err := rfl

@[simp] theorem loadBlock_draws (x : Reg) : (s.loadBlock x).draws = s.draws := rfl

/-! ## writeBytes -/

@[simp] theorem writeBytes_cfg (a : Word) (bs : List Byte) : (s.writeBytes a bs).cfg = s.cfg := by
  induction bs generalizing s a with
  | nil => rfl
  | cons b bs ih => exact ih (s.writeByte a b) (a + 1#16)

@[simp] theorem writeBytes_v (a : Word) (bs : List Byte) : (s.writeBytes a bs).v = s.v := by
  induction bs generalizing s a with
  | nil => rfl
  | cons b bs ih => exact ih (s.writeByte a b) (a + 1#16)

@[simp] theorem writeBytes_idx (a : Word) (bs : List Byte) : (s.writeBytes a bs).idx = s.idx := by
  induction bs generalizing s a with
  | nil => rfl
  | cons b bs ih => exact ih (s.writeByte a b) (a + 1#16)

@[simp] theorem writeBytes_pc (a : Word) (bs : List Byte) : (s.writeBytes a bs).pc = s.pc := by
  induction bs generalizing s a with
  | nil => rfl
  | cons b bs ih => exact ih (s.writeByte a b) (a + 1#16)

@[simp] theorem writeBytes_dt (a : Word) (bs : List Byte) : (s.writeBytes a bs).dt = s.dt := by
  induction bs generalizing s a with
  | nil => rfl
  | cons b bs ih => exact ih (s.writeByte a b) (a + 1#16)

@[simp] theorem writeBytes_st (a : Word) (bs : List Byte) : (s.writeBytes a bs).st = s.st := by
  induction bs generalizing s a with
  | nil => rfl
  | cons b bs ih => exact ih (s.writeByte a b) (a + 1#16)

@[simp] theorem writeBytes_stk (a : Word) (bs : List Byte) : (s.writeBytes a bs).stk = s.stk := by
  induction bs generalizing s a with
  | nil => rfl
  | cons b bs ih => exact ih (s.writeByte a b) (a + 1#16)

@[simp] theorem writeBytes_keys (a : Word) (bs : List Byte) : (s.writeBytes a bs).keys = s.keys := by
  induction bs generalizing s a with
  | nil => rfl
  | cons b bs ih => exact ih (s.writeByte a b) (a + 1#16)

@[simp] theorem writeBytes_disp (a : Word) (bs : List Byte) : (s.writeBytes a bs).disp = s.disp := by
  induction bs generalizing s a with
  | nil => rfl
  | cons b bs ih => exact ih (s.writeByte a b) (a + 1#16)

@[simp] theorem writeBytes_err (a : Word) (bs : List Byte) : (s.writeBytes a bs).err = s.err := by
  induction bs generalizing s a with
  | nil => rfl
  | cons b bs ih => exact ih (s.writeByte a b) (a + 1#16)

@[simp] theorem writeBytes_draws (a : Word) (bs : List Byte) : (s.writeBytes a bs).draws = s.draws := by
  induction bs generalizing s a with
  | nil => rfl
  | cons b bs ih => exact ih (s.writeByte a b) (a + 1#16)

/-! ## writeResult -/

@[simp] theorem writeResult_cfg (x : Reg) (res : Byte) (flag : Bool) :
    (s.writeResult x res flag).cfg = s.cfg := by
  unfold State.writeResult; split <;> rfl

@[simp] theorem writeResult_idx (x : Reg) (res : Byte) (flag : Bool) :
    (s.writeResult x res flag).idx = s.idx := by
  unfold State.writeResult; split <;> rfl

@[simp] theorem writeResult_pc (x : Reg) (res : Byte) (flag : Bool) :
    (s.writeResult x res flag).pc = s.pc := by
  unfold State.writeResult; split <;> rfl

@[simp] theorem writeResult_dt (x : Reg) (res : Byte) (flag : Bool) :
    (s.writeResult x res flag).dt = s.dt := by
  unfold State.writeResult; split <;> rfl

@[simp] theorem writeResult_st (x : Reg) (res : Byte) (flag : Bool) :
    (s.writeResult x res flag).st = s.st := by
  unfold State.writeResult; split <;> rfl

@[simp] theorem writeResult_stk (x : Reg) (res : Byte) (flag : Bool) :
    (s.writeResult x res flag).stk = s.stk := by
  unfold State.writeResult; split <;> rfl

@[simp] theorem writeResult_keys (x : Reg) (res : Byte) (flag : Bool) :
    (s.writeResult x res flag).keys = s.keys := by
  unfold State.writeResult; split <;> rfl

@[simp] theorem writeResult_disp (x : Reg) (res : Byte) (flag : Bool) :
    (s.writeResult x res flag).disp = s.disp := by
  unfold State.writeResult; split <;> rfl

@[simp] theorem writeResult_mem (x : Reg) (res : Byte) (flag : Bool) :
    (s.writeResult x res flag).mem = s.mem := by
  unfold State.writeResult; split <;> rfl

@[simp] theorem writeResult_err (x : Reg) (res : Byte) (flag : Bool) :
    (s.writeResult x res flag).err = s.err := by
  unfold State.writeResult; split <;> rfl

@[simp] theorem writeResult_draws (x : Reg) (res : Byte) (flag : Bool) :
    (s.writeResult x res flag).draws = s.draws := by
  unfold State.writeResult; split <;> rfl

end Sys2Proof.Machine.State
end

