-- ==== Sys2Proof/Laws/Ops.lean ====
section
/-! SUPPORT. What the shared operations do, seen through one register, one byte of memory, one key: a
lemma each, cited instead of unfolding the operation. -/

namespace Sys2Proof.Machine.State

variable (s : State)

/-! ## Registers and bytes under updates that do not touch them -/

@[simp] theorem reg_setPc (target : Word) (r : Reg) : (s.setPc target).reg r = s.reg r := rfl

@[simp] theorem readByte_setPc (target : Word) (a : Word) : (s.setPc target).readByte a = s.readByte a := rfl

@[simp] theorem reg_advance (r : Reg) : (s.advance).reg r = s.reg r := rfl

@[simp] theorem readByte_advance (a : Word) : (s.advance).readByte a = s.readByte a := rfl

@[simp] theorem reg_rewind (r : Reg) : (s.rewind).reg r = s.reg r := rfl

@[simp] theorem readByte_rewind (a : Word) : (s.rewind).readByte a = s.readByte a := rfl

@[simp] theorem reg_setIdx (w : Word) (r : Reg) : (s.setIdx w).reg r = s.reg r := rfl

@[simp] theorem readByte_setIdx (w : Word) (a : Word) : (s.setIdx w).readByte a = s.readByte a := rfl

@[simp] theorem reg_raise (e : ErrorCode) (r : Reg) : (s.raise e).reg r = s.reg r := rfl

@[simp] theorem readByte_raise (e : ErrorCode) (a : Word) : (s.raise e).readByte a = s.readByte a := rfl

@[simp] theorem reg_push (a : Word) (r : Reg) : (s.push a).reg r = s.reg r := rfl

@[simp] theorem readByte_push (w : Word) (a : Word) : (s.push w).readByte a = s.readByte a := rfl

@[simp] theorem reg_setDt (b : Byte) (r : Reg) : (s.setDt b).reg r = s.reg r := rfl

@[simp] theorem readByte_setDt (b : Byte) (a : Word) : (s.setDt b).readByte a = s.readByte a := rfl

@[simp] theorem reg_setSt (b : Byte) (r : Reg) : (s.setSt b).reg r = s.reg r := rfl

@[simp] theorem readByte_setSt (b : Byte) (a : Word) : (s.setSt b).readByte a = s.readByte a := rfl

@[simp] theorem reg_tick (r : Reg) : (s.tick).reg r = s.reg r := rfl

@[simp] theorem readByte_tick (a : Word) : (s.tick).readByte a = s.readByte a := rfl

@[simp] theorem reg_setDisp (d : Display) (r : Reg) : (s.setDisp d).reg r = s.reg r := rfl

@[simp] theorem readByte_setDisp (d : Display) (a : Word) : (s.setDisp d).readByte a = s.readByte a := rfl

@[simp] theorem reg_consumeDraw (r : Reg) : (s.consumeDraw).reg r = s.reg r := rfl

@[simp] theorem readByte_consumeDraw (a : Word) : (s.consumeDraw).readByte a = s.readByte a := rfl

@[simp] theorem readByte_setReg (r : Reg) (b : Byte) (a : Word) : (s.setReg r b).readByte a = s.readByte a := rfl

@[simp] theorem reg_writeByte (a : Word) (b : Byte) (r : Reg) : (s.writeByte a b).reg r = s.reg r := rfl

@[simp] theorem reg_setKeys (k : Vector Bool 16) (r : Reg) : (s.setKeys k).reg r = s.reg r := rfl

@[simp] theorem readByte_setKeys (k : Vector Bool 16) (a : Word) : (s.setKeys k).readByte a = s.readByte a := rfl

@[simp] theorem reg_skipIf (c : Bool) (r : Reg) : (s.skipIf c).reg r = s.reg r := by cases c <;> rfl

@[simp] theorem readByte_skipIf (c : Bool) (a : Word) : (s.skipIf c).readByte a = s.readByte a := by
  cases c <;> rfl

@[simp] theorem readByte_loadBlock (x : Reg) (a : Word) :
    (s.loadBlock x).readByte a = s.readByte a := rfl

@[simp] theorem readByte_writeResult (x : Reg) (res : Byte) (flag : Bool) (a : Word) :
    (s.writeResult x res flag).readByte a = s.readByte a := by
  simp [State.readByte]

@[simp] theorem reg_writeBytes (a : Word) (bs : List Byte) (r : Reg) :
    (s.writeBytes a bs).reg r = s.reg r := by
  simp [State.reg]

/-! ## Register writes -/

/-- A register read after a register write. -/
theorem reg_setReg (r r' : Reg) (b : Byte) :
    (s.setReg r b).reg r' = if r' = r then b else s.reg r' := by
  by_cases h : r' = r
  · subst h; simp [State.reg, State.setReg]
  · have : (r : Nat) ≠ r' := fun hr => h (Fin.ext hr.symm)
    simp [State.reg, State.setReg, h, this]

@[simp] theorem reg_setReg_same (r : Reg) (b : Byte) : (s.setReg r b).reg r = b := by
  simp [reg_setReg]

theorem reg_setReg_other {r r' : Reg} (b : Byte) (h : r' ≠ r) :
    (s.setReg r b).reg r' = s.reg r' := by
  simp [reg_setReg, h]

/-- A result and its flag (spec/10_state.md R39 (c)): the flag register holds the flag, unless it is
also the destination and the result has priority. -/
theorem reg_writeResult_vf (x : Reg) (res : Byte) (flag : Bool) :
    (s.writeResult x res flag).reg vf =
      if x = vf ∧ s.cfg.vfPriority = .result then res else flagByte flag := by
  unfold State.writeResult
  cases s.cfg.vfPriority <;> simp [reg_setReg, eq_comm]

/-- The destination of a result holds it, unless it is the flag register and the flag has priority. -/
theorem reg_writeResult_dest (x : Reg) (res : Byte) (flag : Bool) (h : x ≠ vf) :
    (s.writeResult x res flag).reg x = res := by
  unfold State.writeResult
  cases s.cfg.vfPriority <;> simp [reg_setReg, h]

/-- Every other register is unchanged. -/
theorem reg_writeResult_other {x r : Reg} (res : Byte) (flag : Bool) (hx : r ≠ x) (hf : r ≠ vf) :
    (s.writeResult x res flag).reg r = s.reg r := by
  unfold State.writeResult
  cases s.cfg.vfPriority <;> simp [reg_setReg, hx, hf]

/-- The block load (spec/41_load.md R121). -/
theorem reg_loadBlock (x r : Reg) :
    (s.loadBlock x).reg r = if r ≤ x then s.readByte (s.effAddr r) else s.reg r := by
  simp [State.reg, State.loadBlock]

theorem regBlock_length (x : Reg) : (s.regBlock x).length = x.val + 1 := by
  have := x.isLt
  simp [State.regBlock]

theorem regBlock_getElem (x : Reg) (k : Nat) (h : k < (s.regBlock x).length) :
    (s.regBlock x)[k] = s.reg ⟨k, by have := x.isLt; rw [regBlock_length] at h; omega⟩ := by
  simp [State.regBlock, State.reg]

/-! ## Memory -/

theorem maskAddr_toNat (a : Word) : maskAddr a = a.toNat % 4096 := by
  simp [maskAddr]

theorem maskAddr_lt (a : Word) : maskAddr a < memSize := by
  rw [maskAddr_toNat]; exact Nat.mod_lt _ (by decide)

/-- The masked address of the `k`-th byte of a sequence (spec/20_memory.md R51). -/
theorem maskAddr_add (a : Word) (k : Nat) :
    maskAddr (a + BitVec.ofNat 16 k) = (a.toNat + k) % 4096 := by
  simp only [maskAddr_toNat, BitVec.toNat_add, BitVec.toNat_ofNat]
  omega

/-- One address further along a sequence. -/
theorem addr_succ (a : Word) (k : Nat) :
    a + BitVec.ofNat 16 (k + 1) = a + 1#16 + BitVec.ofNat 16 k := by
  apply BitVec.eq_of_toNat_eq
  simp only [BitVec.toNat_add, BitVec.toNat_ofNat]
  omega

/-- A byte read after a byte write. -/
theorem readByte_writeByte (a a' : Word) (b : Byte) :
    (s.writeByte a b).readByte a' = if maskAddr a' = maskAddr a then b else s.readByte a' := by
  by_cases h : maskAddr a' = maskAddr a
  · simp [State.readByte, State.writeByte, h, Memory.read_write_same]
  · simp [State.readByte, State.writeByte, h, Memory.read_write_other]

/-- Two addresses that differ by a multiple of 4096 name the same byte (R51). -/
theorem readByte_congr {a a' : Word} (h : maskAddr a = maskAddr a') : s.readByte a = s.readByte a' := by
  simp [State.readByte, h]

/-- A sequence of byte writes leaves every byte outside it alone. -/
theorem readByte_writeBytes_outside (a a' : Word) (bs : List Byte)
    (h : ∀ k < bs.length, maskAddr a' ≠ maskAddr (a + BitVec.ofNat 16 k)) :
    (s.writeBytes a bs).readByte a' = s.readByte a' := by
  induction bs generalizing s a with
  | nil => rfl
  | cons b bs ih =>
    have h0 := h 0 (by simp)
    have hs : ∀ k < bs.length, maskAddr a' ≠ maskAddr (a + 1#16 + BitVec.ofNat 16 k) := by
      intro k hk
      rw [← addr_succ]
      exact h (k + 1) (by simpa using hk)
    have := ih (s := s.writeByte a b) (a := a + 1#16) hs
    simpa [State.writeBytes, readByte_writeByte, show maskAddr a' ≠ maskAddr a by simpa using h0]
      using this

/-- The `k`-th byte of a sequence of at most 4096 byte writes reads back. -/
theorem readByte_writeBytes_inside (a : Word) (bs : List Byte) (hl : bs.length ≤ 4096) (k : Nat)
    (h : k < bs.length) : (s.writeBytes a bs).readByte (a + BitVec.ofNat 16 k) = bs[k] := by
  induction bs generalizing s a k with
  | nil => simp at h
  | cons b bs ih =>
    simp only [List.length_cons] at hl h
    cases k with
    | zero =>
      have : ∀ j < bs.length, maskAddr a ≠ maskAddr (a + 1#16 + BitVec.ofNat 16 j) := by
        intro j hj
        rw [← addr_succ, maskAddr_add, maskAddr_toNat]
        omega
      simp [State.writeBytes, readByte_writeBytes_outside _ _ _ _ this, readByte_writeByte]
    | succ k =>
      rw [addr_succ]
      simpa [State.writeBytes] using
        ih (s := s.writeByte a b) (a := a + 1#16) (by omega) k (by omega)

/-- A byte write keeps memory canonical. -/
theorem writeByte_wf (a : Word) (b : Byte) (h : Memory.wf (resetByte s.cfg) s.mem) :
    Memory.wf (resetByte s.cfg) (s.writeByte a b).mem :=
  Memory.wf_write _ b (maskAddr_lt a) h

/-- A sequence of byte writes keeps memory canonical. -/
theorem writeBytes_wf (a : Word) (bs : List Byte) (h : Memory.wf (resetByte s.cfg) s.mem) :
    Memory.wf (resetByte s.cfg) (s.writeBytes a bs).mem := by
  induction bs generalizing s a with
  | nil => exact h
  | cons b bs ih => exact ih (s := s.writeByte a b) (a := a + 1#16) (writeByte_wf s a b h)

@[simp] theorem readBytes_length (a : Word) (n : Nat) : (s.readBytes a n).length = n := by
  induction n generalizing a with
  | zero => rfl
  | succ n ih => simp [State.readBytes, ih]

/-- The `k`-th byte of a sequence read. -/
theorem readBytes_getElem (a : Word) (n k : Nat) (h : k < (s.readBytes a n).length) :
    (s.readBytes a n)[k] = s.readByte (a + BitVec.ofNat 16 k) := by
  induction n generalizing a k with
  | zero => simp at h
  | succ n ih =>
    cases k with
    | zero => simp [State.readBytes]
    | succ k =>
      have := ih (a + 1#16) k (by simpa using h)
      rw [addr_succ, ← this]
      rfl

/-! ## Fetch -/

/-- The fetched word (spec/20_memory.md R53). -/
theorem fetchWord_toNat :
    s.fetchWord.toNat = (s.readByte s.pc).toNat * 256 + (s.readByte (s.pc + 1#16)).toNat :=
  wordOfBytes_toNat _ _

/-- The word placed is the word fetched. -/
@[simp] theorem fetchWord_placeWord (w : Word) : (s.placeWord w).fetchWord = w := by
  have hne : maskAddr s.pc ≠ maskAddr (s.pc + 1#16) := by
    rw [maskAddr_add s.pc 1, maskAddr_toNat]
    omega
  have hi : (s.placeWord w).readByte s.pc = hiByte w := by
    show ((s.writeByte s.pc (hiByte w)).writeByte (s.pc + 1#16) (loByte w)).readByte s.pc = _
    simp [readByte_writeByte, hne]
  have lo : (s.placeWord w).readByte (s.pc + 1#16) = loByte w := by
    show ((s.writeByte s.pc (hiByte w)).writeByte (s.pc + 1#16) (loByte w)).readByte (s.pc + 1#16) = _
    simp [readByte_writeByte]
  show wordOfBytes ((s.placeWord w).readByte s.pc) ((s.placeWord w).readByte (s.pc + 1#16)) = w
  rw [hi, lo, wordOfBytes_bytes]

@[simp] theorem placeWord_err (w : Word) : (s.placeWord w).err = .none := rfl

@[simp] theorem placeWord_cfg (w : Word) : (s.placeWord w).cfg = s.cfg := rfl

@[simp] theorem placeWord_pc (w : Word) : (s.placeWord w).pc = s.pc := rfl

/-- The two bytes of the fetched word, seen as bytes of memory (spec/20_memory.md R53). -/
theorem hiByte_fetchWord : hiByte s.fetchWord = s.readByte s.pc := hiByte_wordOfBytes _ _

theorem loByte_fetchWord : loByte s.fetchWord = s.readByte (s.pc + 1#16) := loByte_wordOfBytes _ _

/-! ## The host's moves -/

/-- A key update gives each key the state written (spec/10_state.md R27). -/
@[simp] theorem key_setKeys (k : Vector Bool 16) (j : Fin 16) : (s.setKeys k).key j = k[j] := rfl

/-- A reset with an image that fits (spec/70_reset_and_hazards.md R210). -/
theorem resetWithImage_fits {image : List Byte} (h : image.length ≤ 3584) :
    s.resetWithImage image =
      { State.resetWith s.cfg with mem := imageMemory s.cfg image, draws := s.draws } := if_pos h

/-- A reset with an image that is too long (R211). -/
theorem resetWithImage_tooLong {image : List Byte} (h : 3584 < image.length) :
    s.resetWithImage image = s.failedReset image := if_neg (Nat.not_le.mpr h)

@[simp] theorem failedReset_err (image : List Byte) : (s.failedReset image).err = .romLoad := rfl

@[simp] theorem failedReset_cfg (image : List Byte) : (s.failedReset image).cfg = s.cfg := rfl

/-- The free state of a failed reset holds at most 32 stack entries (spec/10_state.md R34 (a)). -/
theorem failedReset_depth (image : List Byte) : (s.failedReset image).depth ≤ stackCap :=
  List.length_take_le _ _

/-- The free state of a failed reset has its memory in the canonical form. -/
theorem failedReset_wf (image : List Byte) :
    Memory.wf (resetByte s.cfg) (s.failedReset image).mem := Memory.wf_canonical _ _

/-! ## The end of a step -/

/-- A handler without an error: the timers tick (spec/10_state.md R38 (5)). -/
theorem endStep_ok {s t : State} (h : t.err = .none) : s.endStep t = t.tick := by
  simp [State.endStep, h]

/-- A handler with an error: everything but `ERR` is as before the step (spec/60_exceptions.md R185). -/
theorem endStep_error {s t : State} (h : t.err ≠ .none) : s.endStep t = s.raise t.err := by
  simp [State.endStep, h]

end Sys2Proof.Machine.State

namespace Sys2Proof.Machine

/-! ## Timers, flags, keys, the glyph address -/

/-- A ticked timer is 1 less, and stays 0 at 0 (spec/10_state.md R41). -/
theorem tickTimer_toNat (b : Byte) : (tickTimer b).toNat = b.toNat - 1 := by
  unfold tickTimer
  split
  · next h => simp [h]
  · next h =>
    have : b.toNat ≠ 0 := fun hb => h (BitVec.eq_of_toNat_eq (by simpa using hb))
    have := b.isLt
    simp only [BitVec.toNat_sub, BitVec.toNat_ofNat]
    omega

/-- A flag is 0 or 1. -/
theorem flagByte_toNat (b : Bool) : (flagByte b).toNat = if b then 1 else 0 := by cases b <;> rfl

/-- The glyph address never overflows (spec/41_load.md R117). -/
theorem glyphAddr_toNat (b : Byte) : (glyphAddr b).toNat = 0x50 + 5 * b.toNat := by
  have := b.isLt
  simp only [glyphAddr, glyphBase, glyphStride, byteWord, BitVec.toNat_add, BitVec.toNat_mul, BitVec.toNat_ofNat,
    BitVec.toNat_setWidth]
  omega

/-- The three digits of a byte (spec/41_load.md R119). -/
theorem bcdDigits_toNat (b : Byte) :
    (bcdDigits b).map (·.toNat) = [b.toNat / 100, b.toNat / 10 % 10, b.toNat % 10] := by
  have := b.isLt
  simp [bcdDigits]
  omega

/-- The masked key index is total (spec/44_keypad.md R163). -/
theorem keyIndex_mask4 (b : Byte) :
    keyIndex .mask4 b = some ⟨b.toNat % 16, Nat.mod_lt _ (by omega)⟩ := rfl

/-- Both policies agree up to 15. -/
theorem keyIndex_small (p : KeyIndexPolicy) {b : Byte} (h : b.toNat < 16) :
    keyIndex p b = some ⟨b.toNat, h⟩ := by
  cases p <;> simp [keyIndex, h, Nat.mod_eq_of_lt]

/-- Only the policy `fault` gives a key index no meaning, and only above 15. -/
theorem keyIndex_none {p : KeyIndexPolicy} {b : Byte} :
    keyIndex p b = none ↔ p = .fault ∧ 16 ≤ b.toNat := by
  cases p <;> simp [keyIndex]

theorem mem_allKeys (k : Fin 16) : k ∈ allKeys := by revert k; decide

/-- No key is pressed (spec/44_keypad.md R162). -/
theorem lowestKey_none {s : State} : s.lowestKey = none ↔ ∀ k, s.key k = false := by
  simp [State.lowestKey, List.find?_eq_none, mem_allKeys]

/-- The lowest pressed key (R162). -/
theorem lowestKey_some {s : State} {k : Fin 16} :
    s.lowestKey = some k ↔ s.key k = true ∧ ∀ j < k, s.key j = false := by
  have hp : allKeys.Pairwise (· < ·) := by decide
  unfold State.lowestKey
  rw [List.find?_eq_some_iff_append]
  constructor
  · rintro ⟨hk, as, bs, hsplit, has⟩
    refine ⟨hk, fun j hj => ?_⟩
    have hmem := mem_allKeys j
    rw [hsplit, List.pairwise_append] at hp
    rw [hsplit] at hmem
    rcases List.mem_append.mp hmem with h | h
    · simpa using has j h
    · rcases List.mem_cons.mp h with rfl | h
      · exact absurd hj (lt_irrefl _)
      · exact absurd hj (not_lt_of_gt ((List.pairwise_cons.mp hp.2.1).1 j h))
  · rintro ⟨hk, hlow⟩
    obtain ⟨as, bs, hsplit⟩ := List.append_of_mem (mem_allKeys k)
    refine ⟨hk, as, bs, hsplit, fun j hj => ?_⟩
    rw [hsplit, List.pairwise_append] at hp
    simpa using hlow j (hp.2.2 j hj k (by simp))

end Sys2Proof.Machine
end

