-- ==== Sys2Proof/Laws/Draw.lean ====
section
/-! SUPPORT. The display: what one toggle, the pixel loop and a sprite do to each cell
(spec/43_display.md R151 to R154). -/

namespace Sys2Proof.Machine

@[simp] theorem Display.lit_blank (p : Pixel) : Display.blank.lit p = false := by
  simp [Display.lit, Display.blank]

/-- A toggle flips its own cell and no other. -/
theorem Display.lit_toggle (d : Display) (p q : Pixel) :
    (d.toggle p).lit q = if q = p then !d.lit p else d.lit q := by
  obtain ⟨px, py⟩ := p
  obtain ⟨qx, qy⟩ := q
  by_cases hy : py = qy
  · subst hy
    by_cases hx : px = qx
    · subst hx; simp [Display.lit, Display.toggle]
    · have : (px : Nat) ≠ qx := fun h => hx (Fin.ext h)
      simp [Display.lit, Display.toggle, this, Ne.symm hx]
  · have : (py : Nat) ≠ qy := fun h => hy (Fin.ext h)
    simp [Display.lit, Display.toggle, this, Ne.symm hy]

/-- The pixel loop flips a cell once for each time its place occurs. -/
theorem drawPixels_lit (d : Display) (c : Bool) (ps : List Pixel) (p : Pixel) :
    (drawPixels d c ps).1.lit p = (d.lit p ^^ decide (ps.count p % 2 = 1)) := by
  induction ps generalizing d c with
  | nil => simp [drawPixels]
  | cons q ps ih =>
    simp only [drawPixels, ih, Display.lit_toggle, List.count_cons]
    by_cases h : p = q
    · subst h
      rcases Nat.mod_two_eq_zero_or_one (ps.count p) with h0 | h0 <;>
        cases d.lit p <;> simp [h0, Nat.add_mod]
    · simp [h, Ne.symm h]

/-- Where no place occurs twice, the cells of the loop are flipped and no other. -/
theorem drawPixels_lit_nodup (d : Display) (c : Bool) {ps : List Pixel} (h : ps.Nodup) (p : Pixel) :
    (drawPixels d c ps).1.lit p = (d.lit p ^^ decide (p ∈ ps)) := by
  rw [drawPixels_lit]
  by_cases hp : p ∈ ps
  · simp [hp, List.count_eq_one_of_mem h hp]
  · simp [hp, List.count_eq_zero_of_not_mem hp]

/-- Where no place occurs twice, the collision is whether a touched cell was lit before. -/
theorem drawPixels_collision_nodup (d : Display) (c : Bool) {ps : List Pixel} (h : ps.Nodup) :
    (drawPixels d c ps).2 = (c || ps.any d.lit) := by
  induction ps generalizing d c with
  | nil => simp [drawPixels]
  | cons q ps ih =>
    have hq : q ∉ ps := (List.nodup_cons.mp h).1
    have hsame : ps.any (d.toggle q).lit = ps.any d.lit := by
      rw [Bool.eq_iff_iff]
      simp only [List.any_eq_true]
      have : ∀ p ∈ ps, (d.toggle q).lit p = d.lit p := fun p hp => by
        simp [Display.lit_toggle, show p ≠ q from fun e => hq (e ▸ hp)]
      exact ⟨fun ⟨p, hp, hl⟩ => ⟨p, hp, this p hp ▸ hl⟩, fun ⟨p, hp, hl⟩ => ⟨p, hp, (this p hp).symm ▸ hl⟩⟩
    simp only [drawPixels, List.any_cons, ih _ _ (List.nodup_cons.mp h).2, hsame, Bool.or_assoc]

/-! ## The places of a sprite -/

/-- Where `Place` puts a pixel, modulo the grid (R153). -/
theorem place_spec {policy : EdgePolicy} {px py : Nat} {p : Pixel} (h : place policy px py = some p) :
    p.x.val = px % 64 ∧ p.y.val = py % 32 := by
  cases policy with
  | wrap => simp only [place, Option.some.injEq] at h; subst h; exact ⟨rfl, rfl⟩
  | clip =>
    simp only [place] at h
    split at h
    · next hlt =>
      simp only [Option.some.injEq] at h
      subst h
      exact ⟨(Nat.mod_eq_of_lt hlt.1).symm, (Nat.mod_eq_of_lt hlt.2).symm⟩
    · cases h

/-- Both policies agree inside the grid (R153). -/
theorem place_inside (policy : EdgePolicy) {px py : Nat} (hx : px < 64) (hy : py < 32) :
    place policy px py = some ⟨⟨px, hx⟩, ⟨py, hy⟩⟩ := by
  cases policy <;> simp [place, hx, hy, Nat.mod_eq_of_lt]

theorem mem_rowPixels {policy : EdgePolicy} {x0 y : Nat} {b : Byte} {p : Pixel} :
    p ∈ rowPixels policy x0 y b ↔
      ∃ c < 8, b.getLsbD (7 - c) = true ∧ place policy (x0 + c) y = some p := by
  simp only [rowPixels, List.mem_filterMap, List.mem_range]
  constructor
  · rintro ⟨c, hc, h⟩
    split at h
    · next hb => exact ⟨c, hc, hb, h⟩
    · cases h
  · rintro ⟨c, hc, hb, h⟩
    exact ⟨c, hc, by simp [hb, h]⟩

/-- The cells a sprite covers: row `r`, bit `7 - c` (R151 (3), R152). -/
theorem mem_spritePixels {policy : EdgePolicy} {x0 y0 : Nat} {bs : List Byte} {p : Pixel} :
    p ∈ spritePixels policy x0 y0 bs ↔
      ∃ r, ∃ h : r < bs.length, ∃ c < 8,
        bs[r].getLsbD (7 - c) = true ∧ place policy (x0 + c) (y0 + r) = some p := by
  induction bs generalizing y0 with
  | nil => simp [spritePixels]
  | cons b bs ih =>
    simp only [spritePixels, List.mem_append, mem_rowPixels, ih]
    constructor
    · rintro (⟨c, hc, hb, hp⟩ | ⟨r, hr, c, hc, hb, hp⟩)
      · exact ⟨0, by simp, c, hc, hb, hp⟩
      · exact ⟨r + 1, by simpa using hr, c, hc, by simpa using hb,
          by simpa [Nat.add_assoc, Nat.add_comm 1 r] using hp⟩
    · rintro ⟨r, hr, c, hc, hb, hp⟩
      cases r with
      | zero => exact .inl ⟨c, hc, hb, hp⟩
      | succ r =>
        exact .inr ⟨r, by simpa using hr, c, hc, by simpa using hb,
          by simpa [Nat.add_assoc, Nat.add_comm 1 r] using hp⟩

theorem rowPixels_nodup (policy : EdgePolicy) (x0 y : Nat) (b : Byte) :
    (rowPixels policy x0 y b).Nodup := by
  unfold rowPixels
  rw [List.Nodup, List.pairwise_filterMap]
  refine (List.pairwise_lt_range (n := 8)).imp_of_mem ?_
  intro c c' hc hc' hlt p hp q hq hpq
  simp only [List.mem_range] at hc hc'
  have hp : place policy (x0 + c) y = some p := by
    split at hp
    · exact hp
    · cases hp
  have hq : place policy (x0 + c') y = some q := by
    split at hq
    · exact hq
    · cases hq
  have h1 := (place_spec hp).1
  have h2 := (place_spec hq).1
  rw [hpq] at h1
  omega

/-- No place occurs twice in a sprite of at most 32 rows: it is at most 8 columns by 15 rows, smaller
than the grid in both directions (R151). -/
theorem spritePixels_nodup (policy : EdgePolicy) (x0 y0 : Nat) {bs : List Byte}
    (h : bs.length ≤ 32) : (spritePixels policy x0 y0 bs).Nodup := by
  induction bs generalizing y0 with
  | nil => simp [spritePixels]
  | cons b bs ih =>
    simp only [List.length_cons] at h
    simp only [spritePixels]
    refine List.nodup_append.mpr ⟨rowPixels_nodup policy x0 y0 b, ih (y0 + 1) (by omega), ?_⟩
    intro p hp q hq hpq
    subst hpq
    obtain ⟨c, hc, -, h1⟩ := mem_rowPixels.mp hp
    obtain ⟨r, hr, c', hc', -, h2⟩ := mem_spritePixels.mp hq
    have := (place_spec h1).2
    have := (place_spec h2).2
    omega

/-- The sprite of a draw instruction touches each cell at most once. -/
theorem State.sprite_nodup (s : State) (x y : Reg) (n : Nibble) : (s.sprite x y n).Nodup := by
  have := n.isLt
  exact spritePixels_nodup _ _ _ (by rw [State.readBytes_length]; omega)

/-- The cells the sprite of `DRW Vx, Vy, n` covers (R151 (1), (3)). -/
theorem State.mem_sprite {s : State} {x y : Reg} {n : Nibble} {p : Pixel} :
    p ∈ s.sprite x y n ↔
      ∃ r < n.toNat, ∃ c < 8, (s.readByte (s.effAddr r)).getLsbD (7 - c) = true ∧
        place s.cfg.drawEdge ((s.reg x).toNat % 64 + c) ((s.reg y).toNat % 32 + r) = some p := by
  simp only [State.sprite, mem_spritePixels, State.readBytes_getElem, State.readBytes_length,
    State.effAddr, exists_prop]

/-! ## The draw instruction -/

theorem flagByte_eq_one {b : Bool} : flagByte b = 1 ↔ b = true := by cases b <;> decide

theorem flagByte_eq_zero {b : Bool} : flagByte b = 0 ↔ b = false := by cases b <;> decide

theorem exec_drw (s : State) (x y : Reg) (n : Nibble) :
    exec (.drw x y n) s = .next ((s.setDisp (drawPixels s.disp false (s.sprite x y n)).1).setReg vf
      (flagByte (drawPixels s.disp false (s.sprite x y n)).2)) := rfl

/-- A cell after the pixel loop of a draw instruction. -/
theorem draw_lit (s : State) (x y : Reg) (n : Nibble) (p : Pixel) :
    (drawPixels s.disp false (s.sprite x y n)).1.lit p =
      (s.disp.lit p ^^ decide (p ∈ s.sprite x y n)) :=
  drawPixels_lit_nodup _ _ (s.sprite_nodup x y n) p

/-- The collision of a draw instruction: a cell of its sprite was lit. -/
theorem draw_collision (s : State) (x y : Reg) (n : Nibble) :
    (drawPixels s.disp false (s.sprite x y n)).2 = (s.sprite x y n).any s.disp.lit := by
  rw [drawPixels_collision_nodup _ _ (s.sprite_nodup x y n), Bool.false_or]

end Sys2Proof.Machine
end

