-- ==== Sys2Proof/Laws/Frames.lean ====
section
/-! SUPPORT. The frame of each shared operation: which pieces of state it can change. A meaning's frame is
that of the operation it is made of. -/

namespace Sys2Proof.Machine

variable {s t u : State}

/-! ## Frames compose -/

theorem OnlyChanges.refl (ps : List Part) (s : State) : OnlyChanges ps s s := by
  intro p _; cases p <;> simp [Part.same]

theorem Part.same_trans {p : Part} (h : Part.same s t p) (h' : Part.same t u p) :
    Part.same s u p := by
  cases p <;> simp only [Part.same] at * <;> first
    | exact h'.trans h
    | exact fun a => (h' a).trans (h a)

theorem OnlyChanges.trans {ps : List Part} (h : OnlyChanges ps s t) (h' : OnlyChanges ps t u) :
    OnlyChanges ps s u := fun p hp => Part.same_trans (h p hp) (h' p hp)

theorem OnlyChanges.mono {ps qs : List Part} (h : OnlyChanges ps s t) (hsub : ps ⊆ qs) :
    OnlyChanges qs s t := fun p hp => h p fun hp' => hp (hsub hp')

/-! ## The frame of each operation -/

theorem onlyChanges_setPc {w : Word} : OnlyChanges [.pc] s (s.setPc w) := by
  intro p hp; cases p <;> simp_all [Part.same]

theorem onlyChanges_advance : OnlyChanges [.pc] s s.advance := by
  intro p hp; cases p <;> simp_all [Part.same]

theorem onlyChanges_skipIf {c : Bool} : OnlyChanges [.pc] s (s.skipIf c) := by
  intro p hp; cases p <;> simp_all [Part.same]

theorem onlyChanges_rewind : OnlyChanges [.pc] s s.rewind := by
  intro p hp; cases p <;> simp_all [Part.same]

theorem onlyChanges_setIdx {w : Word} : OnlyChanges [.idx] s (s.setIdx w) := by
  intro p hp; cases p <;> simp_all [Part.same]

theorem onlyChanges_setDt {b : Byte} : OnlyChanges [.dt] s (s.setDt b) := by
  intro p hp; cases p <;> simp_all [Part.same]

theorem onlyChanges_setSt {b : Byte} : OnlyChanges [.st] s (s.setSt b) := by
  intro p hp; cases p <;> simp_all [Part.same]

theorem onlyChanges_tick : OnlyChanges [.dt, .st] s s.tick := by
  intro p hp; cases p <;> simp_all [Part.same]

theorem onlyChanges_raise {e : ErrorCode} : OnlyChanges [.err] s (s.raise e) := by
  intro p hp; cases p <;> simp_all [Part.same]

theorem onlyChanges_push {a : Word} : OnlyChanges [.stk] s (s.push a) := by
  intro p hp; cases p <;> simp_all [Part.same]

theorem onlyChanges_pop {a : Word} {rest : List Word} :
    OnlyChanges [.pc, .stk] s { s with stk := rest, pc := a } := by
  intro p hp; cases p <;> simp_all [Part.same, State.reg, State.readByte]

theorem onlyChanges_setDisp {d : Display} : OnlyChanges [.disp] s (s.setDisp d) := by
  intro p hp; cases p <;> simp_all [Part.same]

theorem onlyChanges_setKeys {k : Vector Bool 16} : OnlyChanges [.keys] s (s.setKeys k) := by
  intro p hp; cases p <;> simp_all [Part.same]

/-- A fetched byte as the byte of memory at `pc + j`. -/
theorem fetchedByte_eq (s : State) (j : Fin 2) :
    s.fetchedByte j = s.readByte (s.pc + BitVec.ofNat 16 j.val) := by
  fin_cases j
  · simpa [State.fetchedByte] using s.hiByte_fetchWord
  · simpa [State.fetchedByte] using s.loByte_fetchWord

theorem onlyChanges_consumeDraw : OnlyChanges [.draws] s s.consumeDraw := by
  intro p hp; cases p <;> simp_all [Part.same]

theorem onlyChanges_setReg {r : Reg} {b : Byte} : OnlyChanges [.regs] s (s.setReg r b) := by
  intro p hp; cases p <;> simp_all [Part.same]

theorem onlyChanges_writeResult {x : Reg} {res : Byte} {flag : Bool} :
    OnlyChanges [.regs] s (s.writeResult x res flag) := by
  intro p hp; cases p <;> simp_all [Part.same]

theorem onlyChanges_loadBlock {x : Reg} : OnlyChanges [.regs] s (s.loadBlock x) := by
  intro p hp; cases p <;> simp_all [Part.same]

theorem onlyChanges_writeBytes {a : Word} {bs : List Byte} :
    OnlyChanges [.mem] s (s.writeBytes a bs) := by
  intro p hp; cases p <;> simp_all [Part.same]

theorem onlyRegs_setReg {r : Reg} {b : Byte} : OnlyRegs [r] s (s.setReg r b) := by
  intro r' h
  exact s.reg_setReg_other b (by simpa using h)

theorem onlyRegs_writeResult {x : Reg} {res : Byte} {flag : Bool} :
    OnlyRegs [x, vf] s (s.writeResult x res flag) := by
  intro r h
  simp only [List.mem_cons, List.not_mem_nil, or_false, not_or] at h
  exact s.reg_writeResult_other res flag h.1 h.2

/-- A result and its flag, as numbers (spec/10_state.md R39 (c)). -/
theorem resultAndFlag_writeResult (s : State) (x : Reg) (res : Byte) (flag : Bool) :
    ResultAndFlag x res.toNat (if flag then 1 else 0) s (s.writeResult x res flag) where
  result h := by rw [s.reg_writeResult_dest x res flag h]
  flagWins h := by
    rw [s.reg_writeResult_vf, if_neg, flagByte_toNat]
    rintro ⟨hx, hr⟩
    rcases h with h | h
    · exact h hx
    · rw [hr] at h; cases h
  resultWins hx hr := by rw [s.reg_writeResult_vf, if_pos ⟨hx, hr⟩]

end Sys2Proof.Machine
end

