-- ==== Sys2Proof/Laws/Step.lean ====
section
/-! SUPPORT. What a step can do, said once (spec/10_state.md R38, spec/60_exceptions.md R185, R186). -/

namespace Sys2Proof.Machine

variable {s t u : State}

/-- A halted core does nothing. -/
theorem step_halted (h : s.err ≠ .none) : step s = .next s := by
  simp [step, h]

/-- A running core runs the decoded instruction. -/
theorem step_running (h : s.err = .none) :
    step s = match exec (decode s.cfg s.fetchWord) s.advance with
      | .next t => .next (s.endStep t)
      | .fault f => .fault f
      | .refused r => .refused r := by
  unfold step; exact if_pos h

/-- The step when the handler gives a next state. -/
theorem step_of_exec (h : s.err = .none) (hx : exec (decode s.cfg s.fetchWord) s.advance = .next t) :
    step s = .next (s.endStep t) := by
  rw [step_running h, hx]

/-- Everything a step with a next state can have done. -/
theorem step_cases (h : step s = .next t) :
    (s.err ≠ .none ∧ t = s) ∨
    (s.err = .none ∧ ∃ u, exec (decode s.cfg s.fetchWord) s.advance = .next u ∧
      ((u.err = .none ∧ t = u.tick) ∨ (u.err ≠ .none ∧ t = s.raise u.err))) := by
  by_cases he : s.err = .none
  · refine .inr ⟨he, ?_⟩
    rw [step_running he] at h
    split at h
    · next u hu =>
      refine ⟨u, hu, ?_⟩
      simp only [Host.Outcome.next.injEq] at h
      by_cases hue : u.err = .none
      · exact .inl ⟨hue, by rw [← h, State.endStep_ok hue]⟩
      · exact .inr ⟨hue, by rw [← h, State.endStep_error hue]⟩
    · cases h
    · cases h
  · rw [step_halted he] at h
    exact .inl ⟨he, by cases h; rfl⟩

/-- A completed step of a running core: its handler left no error and the timers ticked. -/
theorem step_completed (he : s.err = .none) (h : step s = .next t) (ht : t.err = .none) :
    ∃ u, exec (decode s.cfg s.fetchWord) s.advance = .next u ∧ u.err = .none ∧ t = u.tick := by
  rcases step_cases h with ⟨hs, -⟩ | ⟨-, u, hu, ⟨hue, rfl⟩ | ⟨hue, rfl⟩⟩
  · exact absurd he hs
  · exact ⟨u, hu, hue, rfl⟩
  · exact absurd ht hue

/-- The very next step after `withFetchWord` runs the table word. -/
theorem step_withFetchWord (s : State) (nbits w : Nat) :
    step (s.withFetchWord nbits w) =
      match exec (decode s.cfg (tableWord nbits w)) (s.withFetchWord nbits w).advance with
      | .next t => .next ((s.withFetchWord nbits w).endStep t)
      | .fault f => .fault f
      | .refused r => .refused r := by
  rw [step_running (by simp [State.withFetchWord])]
  simp [State.withFetchWord]

/-! ## The meanings with a case of their own -/

theorem exec_ret_cons {a : Word} {rest : List Word} (h : s.stk = a :: rest) :
    exec .ret s = .next { s with stk := rest, pc := a } := by
  simp only [exec, execRet, h]

theorem exec_ret_nil (h : s.stk = []) : exec .ret s = .next (s.raise .callStackEmpty) := by
  simp only [exec, execRet, h]

theorem exec_call_room {nnn : Addr} (h : s.stk.length ≠ 32) :
    exec (.call nnn) s = .next ((s.push s.pc).setPc (addrWord nnn)) := if_neg h

theorem exec_call_full {nnn : Addr} (h : s.stk.length = 32) :
    exec (.call nnn) s = .next (s.raise .callStackFull) := if_pos h

theorem exec_skp {x : Reg} {k : Fin 16} (h : keyIndex s.cfg.keyIndex (s.reg x) = some k) :
    exec (.skp x) s = .next (s.skipIf (s.key k)) := by
  simp only [exec, execSkp, h]

theorem exec_sknp {x : Reg} {k : Fin 16} (h : keyIndex s.cfg.keyIndex (s.reg x) = some k) :
    exec (.sknp x) s = .next (s.skipIf (!s.key k)) := by
  simp only [exec, execSknp, h]

theorem exec_skp_refused {x : Reg} (h : keyIndex s.cfg.keyIndex (s.reg x) = none) :
    exec (.skp x) s = .refused .keyIndexAbove15 := by
  simp only [exec, execSkp, h]

theorem exec_sknp_refused {x : Reg} (h : keyIndex s.cfg.keyIndex (s.reg x) = none) :
    exec (.sknp x) s = .refused .keyIndexAbove15 := by
  simp only [exec, execSknp, h]

theorem exec_ldVxK_pressed {x : Reg} {k : Fin 16} (h : s.lowestKey = some k) :
    exec (.ldVxK x) s = .next (s.setReg x (BitVec.ofNat 8 k)) := by
  simp only [exec, execLdVxK, h]

theorem exec_ldVxK_waiting {x : Reg} (h : s.lowestKey = none) :
    exec (.ldVxK x) s = .next s.rewind := by
  simp only [exec, execLdVxK, h]

end Sys2Proof.Machine
end

