-- ==== Sys2Proof/Laws/Exec.lean ====
section
/-! SUPPORT. What each instruction can change, said once for all of them, so that a whole-machine rule is
read off a table instead of unfolding 35 meanings. -/

namespace Sys2Proof.Machine

/-- The pieces of state an instruction's handler can change. -/
def partsOf : Instr → List Part
  | .cls => [.disp]
  | .ret | .call _ => [.pc, .stk, .err]
  | .jp _ | .jpV0 _ | .seImm _ _ | .sneImm _ _ | .seReg _ _ | .sneReg _ _ | .skp _ | .sknp _ => [.pc]
  | .ldImm _ _ | .addImm _ _ | .ldReg _ _ | .orReg _ _ | .andReg _ _ | .xorReg _ _ | .addReg _ _
  | .subReg _ _ | .shr _ _ | .subnReg _ _ | .shl _ _ | .ldVxDT _ | .ldVxMem _ => [.regs]
  | .ldI _ | .addI _ | .ldF _ => [.idx]
  | .rnd _ _ => [.regs, .draws]
  | .drw _ _ _ => [.disp, .regs]
  | .ldVxK _ => [.regs, .pc]
  | .ldDTVx _ => [.dt]
  | .ldSTVx _ => [.st]
  | .ldB _ | .ldMemVx _ => [.mem]
  | .nop _ => []

/-- A handler that gives a next state changes nothing else. -/
theorem exec_onlyChanges {i : Instr} {s t : State} (h : exec i s = .next t) :
    OnlyChanges (partsOf i) s t := by
  cases i
  case cls => cases h; exact onlyChanges_setDisp
  case ret =>
    cases hs : s.stk with
    | nil => rw [exec_ret_nil hs] at h; cases h; exact onlyChanges_raise.mono (by simp [partsOf])
    | cons a rest =>
      rw [exec_ret_cons hs] at h; cases h; exact onlyChanges_pop.mono (by simp [partsOf])
  case call nnn =>
    by_cases hd : s.stk.length = 32
    · rw [exec_call_full hd] at h; cases h; exact onlyChanges_raise.mono (by simp [partsOf])
    · rw [exec_call_room hd] at h
      cases h
      exact (onlyChanges_push.mono (by simp [partsOf])).trans (onlyChanges_setPc.mono (by simp [partsOf]))
  case jp | jpV0 => cases h; exact onlyChanges_setPc
  case seImm | sneImm | seReg | sneReg => cases h; exact onlyChanges_skipIf
  case skp x =>
    cases hk : keyIndex s.cfg.keyIndex (s.reg x) with
    | none => rw [exec_skp_refused hk] at h; cases h
    | some k => rw [exec_skp hk] at h; cases h; exact onlyChanges_skipIf
  case sknp x =>
    cases hk : keyIndex s.cfg.keyIndex (s.reg x) with
    | none => rw [exec_sknp_refused hk] at h; cases h
    | some k => rw [exec_sknp hk] at h; cases h; exact onlyChanges_skipIf
  case ldImm | addImm | ldReg | orReg | andReg | xorReg | ldVxDT => cases h; exact onlyChanges_setReg
  case addReg | subReg | shr | subnReg | shl => cases h; exact onlyChanges_writeResult
  case ldVxMem => cases h; exact onlyChanges_loadBlock
  case ldI | addI | ldF => cases h; exact onlyChanges_setIdx
  case rnd =>
    cases h
    exact (onlyChanges_consumeDraw.mono (by simp [partsOf])).trans
      (onlyChanges_setReg.mono (by simp [partsOf]))
  case drw =>
    cases h
    exact (onlyChanges_setDisp.mono (by simp [partsOf])).trans
      (onlyChanges_setReg.mono (by simp [partsOf]))
  case ldVxK x =>
    cases hk : s.lowestKey with
    | none => rw [exec_ldVxK_waiting hk] at h; cases h; exact onlyChanges_rewind.mono (by simp [partsOf])
    | some k => rw [exec_ldVxK_pressed hk] at h; cases h; exact onlyChanges_setReg.mono (by simp [partsOf])
  case ldDTVx => cases h; exact onlyChanges_setDt
  case ldSTVx => cases h; exact onlyChanges_setSt
  case ldB | ldMemVx => cases h; exact onlyChanges_writeBytes
  case nop => cases h; exact OnlyChanges.refl _ _

/-- No handler faults (spec/60_exceptions.md R184). -/
theorem exec_not_fault (i : Instr) (s : State) (f : Fault) : exec i s ≠ .fault f := by
  cases i
  case ret => cases hs : s.stk <;> simp [exec, execRet, hs]
  case call => by_cases hd : s.stk.length = 32 <;> simp [exec, execCall, State.depth, hd]
  case skp x => cases hk : keyIndex s.cfg.keyIndex (s.reg x) <;> simp [exec, execSkp, hk]
  case sknp x => cases hk : keyIndex s.cfg.keyIndex (s.reg x) <;> simp [exec, execSknp, hk]
  case ldVxK x => cases hk : s.lowestKey <;> simp [exec, execLdVxK, hk]
  all_goals simp [exec, execCls, execJp, execJpV0, execSeImm, execSneImm, execSeReg, execSneReg,
    execLdImm, execLdReg, execLdI, execLdVxDT, execLdDTVx, execLdSTVx, execLdF, execLdB, execLdMemVx,
    execLdVxMem, execAddImm, execAddReg, execAddI, execOrReg, execAndReg, execXorReg, execSubReg,
    execSubnReg, execShr, execShl, execRnd, execDrw, execNop]

/-- The one refusal of a handler (spec/44_keypad.md R163). -/
theorem exec_refused {i : Instr} {s : State} {r : Refusal} (h : exec i s = .refused r) :
    r = .keyIndexAbove15 ∧ s.cfg.keyIndex = .fault ∧
      ∃ x : Reg, 15 < (s.reg x).toNat ∧ (i = .skp x ∨ i = .sknp x) := by
  cases i
  case ret =>
    cases hs : s.stk with
    | nil => rw [exec_ret_nil hs] at h; cases h
    | cons => rw [exec_ret_cons hs] at h; cases h
  case call nnn =>
    by_cases hd : s.stk.length = 32
    · rw [exec_call_full hd] at h; cases h
    · rw [exec_call_room hd] at h; cases h
  case skp x =>
    cases hk : keyIndex s.cfg.keyIndex (s.reg x) with
    | none =>
      rw [exec_skp_refused hk] at h
      obtain ⟨hp, hx⟩ := keyIndex_none.mp hk
      exact ⟨by cases h; rfl, hp, x, hx, .inl rfl⟩
    | some k => rw [exec_skp hk] at h; cases h
  case sknp x =>
    cases hk : keyIndex s.cfg.keyIndex (s.reg x) with
    | none =>
      rw [exec_sknp_refused hk] at h
      obtain ⟨hp, hx⟩ := keyIndex_none.mp hk
      exact ⟨by cases h; rfl, hp, x, hx, .inr rfl⟩
    | some k => rw [exec_sknp hk] at h; cases h
  case ldVxK x =>
    cases hk : s.lowestKey with
    | none => rw [exec_ldVxK_waiting hk] at h; cases h
    | some k => rw [exec_ldVxK_pressed hk] at h; cases h
  all_goals cases h

end Sys2Proof.Machine
end

