-- ==== Sys2Proof/Laws/PerInstr.lean ====
section
/-! SUPPORT. Facts about each instruction as syntax, one lemma per constructor. -/

/-! ## EncodingRow: the word of an instruction selects its own row of the opcode map
(spec/30_encoding.md R76). -/

namespace Sys2Proof.Laws.EncodingRow

/-- The row of R76 with the instruction's number is selected by the instruction's word; the fallback,
row 35, has no mask. -/
def Statement (i : Instr) : Prop :=
  match opcodeMap.find? (fun r => r.row == i.row) with
  | some r => r.selects (encode i) = true
  | none => i.row = 35

/-- A row whose mask covers the top nibble. -/
theorem selects_T {k : Nat} {p : Word} {w : Word} (h : wordTXYN (fieldT w) 0#4 0#4 0#4 = p) :
    (OpcodeRow.mk k 0xF000#16 p).selects w = true := by
  simp [OpcodeRow.selects, and_maskT, h]

/-- A row whose mask covers the top and the low nibble. -/
theorem selects_TN {k : Nat} {p : Word} {w : Word} (h : wordTXYN (fieldT w) 0#4 0#4 (fieldN w) = p) :
    (OpcodeRow.mk k 0xF00F#16 p).selects w = true := by
  simp [OpcodeRow.selects, and_maskTN, h]

/-- A row whose mask covers the top nibble and the low byte. -/
theorem selects_TKK {k : Nat} {p : Word} {w : Word} (h : wordTXKK (fieldT w) 0#4 (fieldKK w) = p) :
    (OpcodeRow.mk k 0xF0FF#16 p).selects w = true := by
  simp [OpcodeRow.selects, and_maskTKK, h]

theorem cls : Statement .cls := by
  show OpcodeRow.selects _ _ = true
  decide

theorem ret : Statement .ret := by
  show OpcodeRow.selects _ _ = true
  decide

theorem jp (nnn : Addr) : Statement (.jp nnn) := selects_T (by simp [encode]; decide)

theorem call (nnn : Addr) : Statement (.call nnn) := selects_T (by simp [encode]; decide)

theorem seImm (x : Reg) (kk : Byte) : Statement (.seImm x kk) := selects_T (by simp [encode]; decide)

theorem sneImm (x : Reg) (kk : Byte) : Statement (.sneImm x kk) := selects_T (by simp [encode]; decide)

theorem seReg (x : Reg) (y : Reg) : Statement (.seReg x y) := selects_T (by simp [encode]; decide)

theorem ldImm (x : Reg) (kk : Byte) : Statement (.ldImm x kk) := selects_T (by simp [encode]; decide)

theorem addImm (x : Reg) (kk : Byte) : Statement (.addImm x kk) := selects_T (by simp [encode]; decide)

theorem ldReg (x : Reg) (y : Reg) : Statement (.ldReg x y) := selects_TN (by simp [encode]; decide)

theorem orReg (x : Reg) (y : Reg) : Statement (.orReg x y) := selects_TN (by simp [encode]; decide)

theorem andReg (x : Reg) (y : Reg) : Statement (.andReg x y) := selects_TN (by simp [encode]; decide)

theorem xorReg (x : Reg) (y : Reg) : Statement (.xorReg x y) := selects_TN (by simp [encode]; decide)

theorem addReg (x : Reg) (y : Reg) : Statement (.addReg x y) := selects_TN (by simp [encode]; decide)

theorem subReg (x : Reg) (y : Reg) : Statement (.subReg x y) := selects_TN (by simp [encode]; decide)

theorem shr (x : Reg) (y : Reg) : Statement (.shr x y) := selects_TN (by simp [encode]; decide)

theorem subnReg (x : Reg) (y : Reg) : Statement (.subnReg x y) := selects_TN (by simp [encode]; decide)

theorem shl (x : Reg) (y : Reg) : Statement (.shl x y) := selects_TN (by simp [encode]; decide)

theorem sneReg (x : Reg) (y : Reg) : Statement (.sneReg x y) := selects_T (by simp [encode]; decide)

theorem ldI (nnn : Addr) : Statement (.ldI nnn) := selects_T (by simp [encode]; decide)

theorem jpV0 (nnn : Addr) : Statement (.jpV0 nnn) := selects_T (by simp [encode]; decide)

theorem rnd (x : Reg) (kk : Byte) : Statement (.rnd x kk) := selects_T (by simp [encode]; decide)

theorem drw (x : Reg) (y : Reg) (n : Nibble) : Statement (.drw x y n) := selects_T (by simp [encode]; decide)

theorem skp (x : Reg) : Statement (.skp x) := selects_TKK (by simp [encode]; decide)

theorem sknp (x : Reg) : Statement (.sknp x) := selects_TKK (by simp [encode]; decide)

theorem ldVxDT (x : Reg) : Statement (.ldVxDT x) := selects_TKK (by simp [encode]; decide)

theorem ldVxK (x : Reg) : Statement (.ldVxK x) := selects_TKK (by simp [encode]; decide)

theorem ldDTVx (x : Reg) : Statement (.ldDTVx x) := selects_TKK (by simp [encode]; decide)

theorem ldSTVx (x : Reg) : Statement (.ldSTVx x) := selects_TKK (by simp [encode]; decide)

theorem addI (x : Reg) : Statement (.addI x) := selects_TKK (by simp [encode]; decide)

theorem ldF (x : Reg) : Statement (.ldF x) := selects_TKK (by simp [encode]; decide)

theorem ldB (x : Reg) : Statement (.ldB x) := selects_TKK (by simp [encode]; decide)

theorem ldMemVx (x : Reg) : Statement (.ldMemVx x) := selects_TKK (by simp [encode]; decide)

theorem ldVxMem (x : Reg) : Statement (.ldVxMem x) := selects_TKK (by simp [encode]; decide)

theorem nop (raw : Word) : Statement (.nop raw) := by
  show Instr.row (.nop raw) = 35
  rfl

end Sys2Proof.Laws.EncodingRow
end

