-- ==== Sys2Proof/Tests/Slice0.lean ====
section
/-! SUPPORT. The model's own tests. Expected values come from spec/95_test_vectors.md (the vector's name
is in the comment), never from the model. The last part gives, for every obligation with hypotheses, a
concrete state and operands that meet them together. -/

namespace Sys2Proof.Tests

open Sys2Proof.Machine

/-! ## Helpers -/

/-- Whether one step on the word `w`, placed at `pc` of `s`, gives a next state with `p`. -/
def after (w : Word) (s : State) (p : State → Bool) : Bool :=
  match step (s.placeWord w) with
  | .next t => p t
  | _ => false

/-- Whether the handler of `i` gives a next state with `p`. -/
def gives (i : Instr) (s : State) (p : State → Bool) : Bool :=
  match exec i s with
  | .next t => p t
  | _ => false

/-- The reset state with some registers set. -/
def regs (rs : List (Reg × Byte)) : State := rs.foldl (fun s r => s.setReg r.1 r.2) State.reset

/-- A state with `I` set and bytes stored from there. -/
def bytesAt (s : State) (a : Word) (bs : List Byte) : State := (s.setIdx a).writeBytes a bs

/-- A state with some keys pressed. -/
def pressed (s : State) (ks : List (Fin 16)) : State :=
  s.setKeys (Vector.ofFn fun k => ks.contains k)

/-- A state with some cells toggled, (column, row). -/
def toggled (s : State) (ps : List (Fin 64 × Fin 32)) : State :=
  s.setDisp (ps.foldl (fun d p => d.toggle ⟨p.1, p.2⟩) s.disp)

/-- The reset state with a pending call stack, top first. -/
def stack (stk : List Word) : State := { State.reset with stk := stk }

/-- The reset state under other parameters. -/
def under (c : Config) : State := State.resetWith c

/-- The number of lit cells of a row. -/
def litInRow (s : State) (y : Fin 32) : Nat := s.disp[y].toList.count true

/-! ## WellFormed: a `NOP` with a word of another row is refused, in each group -/

theorem test_wf_group0 : (Instr.nop 0x00E0).wf Config.default = false := by decide
theorem test_wf_group0_low_nibble :
    (Instr.nop 0x00F0).wf { Config.default with group0Field := .n } = false := by decide
theorem test_wf_group5 : (Instr.nop 0x5121).wf Config.default = false := by decide
theorem test_wf_group8 : (Instr.nop 0x8ABE).wf Config.default = false := by decide
theorem test_wf_group9 : (Instr.nop 0x9120).wf { Config.default with regSkipLowNibble := .mustBeZero } = false := by
  decide
theorem test_wf_groupE : (Instr.nop 0xE59E).wf Config.default = false := by decide
theorem test_wf_groupE_low_nibble :
    (Instr.nop 0xE5AE).wf { Config.default with groupEField := .n } = false := by decide
theorem test_wf_groupF : (Instr.nop 0xF565).wf Config.default = false := by decide
theorem test_wf_other_groups : (Instr.nop 0x1200).wf Config.default = false := by decide
theorem test_wf_accepts : (Instr.nop 0x8AB8).wf Config.default = true ∧
    (Instr.nop 0x5121).wf { Config.default with regSkipLowNibble := .mustBeZero } = true := by decide

/-! ## Decode: the words of Part 4, one at least for every constructor -/

theorem test_decode_flow :
    [0x00EE, 0x1ABC, 0x2208, 0x3A7F, 0x4B01, 0x5AB0, 0x9AB0, 0xB123].map (decode Config.default) =
      [.ret, .jp 0xABC, .call 0x208, .seImm 0xA 0x7F, .sneImm 0xB 0x01, .seReg 0xA 0xB, .sneReg 0xA 0xB,
       .jpV0 0x123] := by decide
theorem test_decode_load :
    [0x6005, 0x8AB0, 0xA123, 0xF507, 0xF515, 0xF518, 0xF529, 0xF533, 0xF555, 0xF565].map
        (decode Config.default) =
      [.ldImm 0 0x05, .ldReg 0xA 0xB, .ldI 0x123, .ldVxDT 5, .ldDTVx 5, .ldSTVx 5, .ldF 5, .ldB 5,
       .ldMemVx 5, .ldVxMem 5] := by decide
theorem test_decode_arith :
    [0x7CFF, 0x8AB1, 0x8AB2, 0x8AB3, 0x8AB4, 0x8AB5, 0x8AB6, 0x8AB7, 0x8ABE, 0xC5F0, 0xF51E].map
        (decode Config.default) =
      [.addImm 0xC 0xFF, .orReg 0xA 0xB, .andReg 0xA 0xB, .xorReg 0xA 0xB, .addReg 0xA 0xB,
       .subReg 0xA 0xB, .shr 0xA 0xB, .subnReg 0xA 0xB, .shl 0xA 0xB, .rnd 5 0xF0, .addI 5] := by decide
theorem test_decode_screen_keys :
    [0x00E0, 0x0AE0, 0xD125, 0xE59E, 0xE5A1, 0xF50A].map (decode Config.default) =
      [.cls, .cls, .drw 1 2 5, .skp 5, .sknp 5, .ldVxK 5] := by decide
theorem test_decode_fallback :
    ([0x0000, 0x00F0, 0x8AB8, 0xE5AE, 0xF575].map fun w => decode Config.default w) =
      [.nop 0x0000, .nop 0x00F0, .nop 0x8AB8, .nop 0xE5AE, .nop 0xF575] := by decide
theorem test_decode_params :
    decode { Config.default with group0Field := .n } 0x00F0 = .cls ∧
    decode { Config.default with groupEField := .n } 0xE5AE = .skp 5 ∧
    decode { Config.default with regSkipLowNibble := .mustBeZero } 0x5127 = .nop 0x5127 := by decide
theorem test_decodeTableWord : decodeTableWord 16 0xD125 = some (.drw 1 2 5) := by decide
theorem test_decode_truncated : decodeBytes Config.default [0x60] = .error .truncated := by decide

/-! ## Memory: the canonical form -/

theorem test_memory_write_back :
    ((State.reset.writeByte 0x0300 7).writeByte 0x1300 0).mem = [] ∧
    ((State.reset.writeByte 0x0301 7).writeByte 0x0300 1).mem = [(0x300, 1), (0x301, 7)] := by decide

/-! ## Control flow -/

/-- CF1 -/ theorem test_ret : after 0x00EE (stack [0x0202]) (fun t => t.pc == 0x0202 && t.stk == []) = true := by decide
/-- CF4 -/ theorem test_ret_unmasked :
    after 0x00EE (stack [0xFFFE, 0x1234]) (fun t => t.pc == 0xFFFE && t.stk == [0x1234]) = true := by decide
/-- CF5 -/ theorem test_jp : after 0x1234 State.reset (fun t => t.pc == 0x0234) = true := by decide
/-- CF10 -/ theorem test_jpV0 : after 0xBFFF (regs [(0, 0xFF)]) (fun t => t.pc == 0x10FE) = true := by decide
/-- CF11 -/ theorem test_call :
    after 0x2208 State.reset (fun t => t.pc == 0x0208 && t.stk == [0x0202]) = true := by decide
/-- CF13 -/ theorem test_call_full :
    after 0x2300 (stack (List.replicate 32 0x0300)) (fun t =>
      t.err == .callStackFull && t.errPort == 2 && t.pc == 0x0200 && t.stk.length == 32) = true := by decide
/-- CF14, CF15 -/ theorem test_seImm :
    after 0x332A (regs [(3, 0x2A)]) (fun t => t.pc == 0x0204) = true ∧
    after 0x332A (regs [(3, 0x2B)]) (fun t => t.pc == 0x0202) = true := by decide
/-- CF16, CF17 -/ theorem test_sneImm :
    after 0x432A (regs [(3, 0x2A)]) (fun t => t.pc == 0x0202) = true ∧
    after 0x432A State.reset (fun t => t.pc == 0x0204) = true := by decide
/-- CF18, CF19 -/ theorem test_seReg :
    after 0x5120 (regs [(1, 7), (2, 7)]) (fun t => t.pc == 0x0204) = true ∧
    after 0x5120 (regs [(1, 7), (2, 8)]) (fun t => t.pc == 0x0202) = true := by decide
/-- CF22, CF23 -/ theorem test_sneReg :
    after 0x9120 (regs [(1, 7), (2, 8)]) (fun t => t.pc == 0x0204) = true ∧
    after 0x9120 (regs [(1, 7), (2, 7)]) (fun t => t.pc == 0x0202) = true := by decide
/-- CF25 -/ theorem test_fetch_wraps :
    (match step { State.reset with pc := 0x0FFF, mem := [(0, 0x55), (0xFFF, 0x6A)] } with
      | .next t => t.reg 0xA == 0x55 && t.pc == 0x1001
      | _ => false) = true := by decide
/-- X2, X3 -/ theorem test_ret_empty :
    after 0x00EE State.reset (fun t => t.err == .callStackEmpty && t.errPort == 3 && t.pc == 0x0200 &&
      (match step t with | .next u => u == t | _ => false)) = true := by decide

/-! ## Loads -/

/-- L2 -/ theorem test_ldImm : after 0x6FAB State.reset (fun t => t.reg vf == 0xAB) = true := by decide
/-- L3 -/ theorem test_ldReg :
    after 0x8120 (regs [(2, 0x7C)]) (fun t => t.reg 1 == 0x7C && t.reg 2 == 0x7C) = true := by decide
/-- L5 -/ theorem test_ldI :
    after 0xAFFF (State.reset.setIdx 0xF123) (fun t => t.idx == 0x0FFF) = true := by decide
/-- L6 -/ theorem test_ldVxDT :
    after 0xF207 (State.reset.setDt 5) (fun t => t.reg 2 == 5 && t.dt == 4) = true := by decide
/-- L9, L11 -/ theorem test_ldDTVx :
    after 0xF015 (State.reset.setDt 7) (fun t => t.dt == 0) = true ∧
    after 0xF015 (regs [(0, 0xFF)]) (fun t => t.dt == 0xFE) = true := by decide
/-- L12 -/ theorem test_ldSTVx :
    after 0xF118 ((regs [(1, 1)]).setDt 3) (fun t => t.st == 0 && t.dt == 2) = true := by decide
/-- L15, L17 -/ theorem test_ldF :
    after 0xF029 (regs [(0, 0x0F)]) (fun t => t.idx == 0x009B) = true ∧
    after 0xF029 (regs [(0, 0xFF)]) (fun t => t.idx == 0x054B) = true := by decide
/-- L22 -/ theorem test_ldB :
    after 0xF033 ((regs [(0, 0x6D)]).setIdx 0x0FFE) (fun t => t.readByte 0x0FFE == 1 &&
      t.readByte 0x0FFF == 0 && t.readByte 0x0000 == 9 && t.idx == 0x0FFE) = true := by decide
/-- L24 -/ theorem test_ldMemVx :
    after 0xF155 ((regs [(0, 0x12), (1, 0x0C), (2, 0x99)]).setIdx 0x0208) (fun t => t.readByte 0x0208 == 0x12 &&
      t.readByte 0x0209 == 0x0C && t.readByte 0x020A == 0 && t.idx == 0x0208) = true := by decide
/-- L27 -/ theorem test_ldVxMem :
    after 0xF265 (bytesAt (regs [(3, 0x77)]) 0x0300 [2, 3, 4, 5]) (fun t => t.reg 0 == 2 && t.reg 1 == 3 &&
      t.reg 2 == 4 && t.reg 3 == 0x77 && t.idx == 0x0300) = true := by decide
/-- L28 -/ theorem test_glyphs :
    after 0xFF65 (State.reset.setIdx 0x0050) (fun t => t.v.toList ==
      [0xF0, 0x90, 0x90, 0x90, 0xF0, 0x20, 0x60, 0x20, 0x20, 0x70, 0xF0, 0x10, 0xF0, 0x80, 0xF0, 0xF0]) =
      true := by decide

/-! ## Arithmetic and logic -/

/-- A1, A3 -/ theorem test_addImm :
    after 0x7103 (regs [(1, 0xFE)]) (fun t => t.reg 1 == 1 && t.reg vf == 0) = true ∧
    after 0x7F01 (regs [(vf, 0xFF)]) (fun t => t.reg vf == 0) = true := by decide
/-- A6, A7 -/ theorem test_addReg :
    after 0x8014 (regs [(0, 0xFF), (vf, 1)]) (fun t => t.reg 0 == 0xFF && t.reg vf == 0) = true ∧
    after 0x8014 (regs [(0, 0xFF), (1, 1)]) (fun t => t.reg 0 == 0 && t.reg vf == 1) = true := by decide
/-- A11, both priorities -/ theorem test_addReg_vf :
    after 0x8F14 (regs [(vf, 0xC8), (1, 0x64)]) (fun t => t.reg vf == 1) = true ∧
    after 0x8F14 (((under { Config.default with vfPriority := .result }).setReg vf 0xC8).setReg 1 0x64)
      (fun t => t.reg vf == 0x2C) = true := by decide
/-- A13 -/ theorem test_orReg :
    after 0x8011 (regs [(0, 0x0F), (1, 0xF0), (vf, 1)]) (fun t => t.reg 0 == 0xFF && t.reg vf == 1) = true := by decide
/-- A14 -/ theorem test_andReg :
    after 0x8012 (regs [(0, 0x3C), (1, 0x0F), (vf, 1)]) (fun t => t.reg 0 == 0x0C && t.reg vf == 1) = true := by decide
/-- A15 -/ theorem test_xorReg :
    after 0x8013 (regs [(0, 0xFF), (1, 0x0F), (vf, 1)]) (fun t => t.reg 0 == 0xF0 && t.reg vf == 1) = true := by decide
/-- A18, A24 -/ theorem test_subReg :
    after 0x8015 (regs [(0, 3), (1, 5), (vf, 1)]) (fun t => t.reg 0 == 0xFE && t.reg vf == 0) = true ∧
    after 0x80F5 (regs [(0, 9), (vf, 1)]) (fun t => t.reg 0 == 8 && t.reg vf == 1) = true := by decide
/-- A25, A27 -/ theorem test_subnReg :
    after 0x8017 (regs [(0, 3), (1, 5)]) (fun t => t.reg 0 == 2 && t.reg vf == 1) = true ∧
    after 0x8017 (regs [(0, 7), (1, 7), (vf, 1)]) (fun t => t.reg 0 == 0 && t.reg vf == 0) = true := by decide
/-- A33, A34 -/ theorem test_shr :
    after 0x8006 (regs [(0, 0xFF)]) (fun t => t.reg 0 == 0x7F && t.reg vf == 1) = true ∧
    after 0x8126 (regs [(1, 4), (2, 0xFF)]) (fun t => t.reg 1 == 2 && t.reg 2 == 0xFF && t.reg vf == 0) =
      true := by decide
/-- A36, A40 -/ theorem test_shl :
    after 0x800E (regs [(0, 0x81)]) (fun t => t.reg 0 == 2 && t.reg vf == 1) = true ∧
    after 0x8FFE (regs [(vf, 0x81)]) (fun t => t.reg vf == 1) = true := by decide
/-- A43, A44 -/ theorem test_addI :
    after 0xF21E ((regs [(2, 1)]).setIdx 0x0FFF) (fun t => t.idx == 0x1000 && t.reg vf == 0) = true ∧
    after 0xF21E ((regs [(2, 0xFF)]).setIdx 0xFF80) (fun t => t.idx == 0x007F) = true := by decide
/-- A46: whatever is drawn, the mask 0 leaves 0 -/ theorem test_rnd_zero_mask :
    exec (.rnd 3 0x00) (regs [(3, 0xEE)]) = .next ((regs [(3, 0xEE)]).consumeDraw.setReg 3 0) := by
  simp [exec, execRnd]
/-- R140: the draw under the mask, and the rest as before -/ theorem test_rnd :
    gives (.rnd 3 0x0F) (regs [(4, 0xEE)]) (fun t => t.reg 4 == 0xEE && t.pc == 0x0200) = true := by decide

/-! ## Display -/

/-- D1 -/ theorem test_cls :
    after 0x00E0 (toggled (regs [(vf, 1)]) [(0, 0), (5, 5), (63, 31)]) (fun t =>
      t.displayPort 0 0 == 0 && t.displayPort 5 5 == 0 && t.displayPort 31 63 == 0 && litInRow t 31 == 0 &&
      t.reg vf == 1) = true := by decide
/-- D5 -/ theorem test_drw_collision :
    after 0xD011 (bytesAt (toggled State.reset [(1, 0)]) 0x0300 [0xC0]) (fun t =>
      t.displayPort 0 0 == 0xFF && t.displayPort 0 1 == 0 && litInRow t 0 == 1 && t.reg vf == 1) = true := by decide
/-- D9, both policies -/ theorem test_drw_edge :
    after 0xD011 (bytesAt (regs [(0, 62), (1, 5)]) 0x0300 [0xF0]) (fun t =>
      t.disp.lit ⟨62, 5⟩ && t.disp.lit ⟨63, 5⟩ && t.disp.lit ⟨0, 5⟩ && t.disp.lit ⟨1, 5⟩ &&
      litInRow t 5 == 4 && t.reg vf == 0) = true ∧
    after 0xD011 (bytesAt (((under { Config.default with drawEdge := .clip }).setReg 0 62).setReg 1 5) 0x0300 [0xF0])
      (fun t => t.disp.lit ⟨62, 5⟩ && t.disp.lit ⟨63, 5⟩ && litInRow t 5 == 2 && t.reg vf == 0) =
      true := by decide

/-! ## Keypad -/

/-- K1, K3 -/ theorem test_skp :
    after 0xE49E (pressed (regs [(4, 0x0A)]) [10]) (fun t => t.pc == 0x0204) = true ∧
    after 0xE49E (pressed (regs [(4, 0x1A)]) [10]) (fun t => t.pc == 0x0204) = true := by decide
/-- K4, K5 -/ theorem test_sknp :
    after 0xE4A1 (pressed (regs [(4, 0x0A)]) [10]) (fun t => t.pc == 0x0202) = true ∧
    after 0xE4A1 (regs [(4, 0x0A)]) (fun t => t.pc == 0x0204) = true := by decide
/-- K6 -/ theorem test_ldVxK_waits :
    after 0xF00A (((regs [(0, 0x55)]).setDt 3).setSt 1) (fun t =>
      t.pc == 0x0200 && t.reg 0 == 0x55 && t.dt == 2 && t.st == 0) = true := by decide
/-- K8 -/ theorem test_ldVxK :
    after 0xF20A (pressed State.reset [9, 3]) (fun t => t.reg 2 == 3 && t.pc == 0x0202) = true := by decide

/-! ## Fallback -/

/-- 2.6 -/ theorem test_nop :
    after 0x8AB8 (((regs [(0xA, 1), (0xB, 2), (vf, 3)]).setDt 2).setSt 1) (fun t => t.pc == 0x0202 &&
      t.dt == 1 && t.st == 0 && t.reg 0xA == 1 && t.reg 0xB == 2 && t.reg vf == 3) = true := by decide

/-! ## Reset -/

/-- R36, S2 -/ theorem test_reset :
    State.reset.pc = 0x0200 ∧ State.reset.readByte 0x0050 = 0xF0 ∧ State.reset.readByte 0x009F = 0x80 ∧
    State.reset.readByte 0x00A0 = 0 ∧ State.reset.readByte 0x004F = 0 ∧ State.reset.errPort = 0 := by decide
/-- P1, its image -/ theorem test_reset_image :
    (State.reset.resetWithImage [0x60, 0x05, 0x61, 0x03, 0x80, 0x14]).mem =
      [(0x200, 0x60), (0x201, 0x05), (0x202, 0x61), (0x203, 0x03), (0x204, 0x80), (0x205, 0x14)] := by decide
/-- X4, X5: 3585 bytes are too many, 3584 are not -/ theorem test_reset_limit (image : List Byte) :
    (image.length = 3585 → (State.reset.resetWithImage image).errPort = 1) ∧
    (image.length = 3584 → (State.reset.resetWithImage image).errPort = 0) := by
  constructor <;> intro h <;> simp [State.resetWithImage, State.failedReset, h, romMax, State.errPort, ErrorCode.code, State.resetWith]

/-! ## Witnesses: each obligation's hypotheses, met together

A statement whose only hypothesis is that a handler or a step answers a next state is met by every test
above; what follows gives the ones that ask for more, clause by clause, at the boundaries. -/

/-- A call stack with as many entries as it can hold (R26). -/
def fullStack : List Word := List.replicate 32 0x0202

/-- The parameters of `Config.default`, but `KEY_INDEX_POLICY = fault`. -/
def faultPolicy : Config := { Config.default with keyIndex := .fault }

theorem witness_EncodeThenDecodeGivesTheInstruction :
    (Instr.drw 1 2 5).wf Config.default = true ∧ (Instr.nop 0x8AB8).wf Config.default = true := by decide

theorem witness_DecodeThenEncodeGivesTheWord :
    fieldT 0xE59E ≠ 0x0 ∧ fieldT 0xE59E ≠ 0x5 ∧ fieldT 0xE59E ≠ 0x9 ∧
    (fieldT 0xE59E = 0xE → Config.default.groupEField = .kk) := by decide

theorem witness_DecodeFollowsTheOpcodeMap :
    (⟨1, 0xF0FF, 0x00E0⟩ : OpcodeRow) ∈ opcodeMap ∧
    (⟨1, 0xF0FF, 0x00E0⟩ : OpcodeRow).selects 0x00E0 = true ∧
    ∀ r ∈ opcodeMap, r.selects 0x8AB8 = false := by decide

theorem witness_DecodedFieldsAreTheFixedFormulas :
    State.reset.err ≠ .invalidAddressingMode ∧
    exec .cls State.reset = .next (State.reset.setDisp Display.blank) := ⟨by decide, rfl⟩

theorem witness_StepRunsTheDecodedInstruction :
    (let s := State.reset.placeWord 0x6005
     s.err = .none ∧ decodeBytes s.cfg [s.readByte s.pc, s.readByte (s.pc + 1#16)] = .ok (.ldImm 0 5, []) ∧
       gives (.ldImm 0 5) { s with pc := s.pc + 2#16 } (fun t => t.err == .none) = true) ∧
    (let s := (stack fullStack).placeWord 0x2300
     s.err = .none ∧ decodeBytes s.cfg [s.readByte s.pc, s.readByte (s.pc + 1#16)] = .ok (.call 0x300, []) ∧
       gives (.call 0x300) { s with pc := s.pc + 2#16 } (fun t => t.err != .none) = true) := by decide

theorem witness_StepRunsTheDecodedInstruction_refused :
    let s := ((under faultPolicy).setReg 0 0x10).placeWord 0xE09E
    s.err = .none ∧ decodeBytes s.cfg [s.readByte s.pc, s.readByte (s.pc + 1#16)] = .ok (.skp 0, []) ∧
      exec (.skp 0) { s with pc := s.pc + 2#16 } = .refused .keyIndexAbove15 := ⟨by decide, by decide, rfl⟩

theorem witness_StepAlwaysCompletes : State.reset.cfg.keyIndex = .mask4 := by decide

theorem witness_OnlyAKeyIndexAbove15IsRefused :
    let s := ((under faultPolicy).setReg 0 0x10).placeWord 0xE0A1
    s.err = .none ∧ s.cfg.keyIndex = .fault ∧ step s = .refused .keyIndexAbove15 ∧
      15 < (s.reg 0).toNat ∧ decode s.cfg s.fetchWord = .sknp 0 :=
  ⟨by decide, by decide, rfl, by decide, by decide⟩

/-- The premises shared by the statements about a completed step, on a word of every `pc` case. -/
theorem witness_CompletedStepLeavesPcWhereTheTableSays :
    ([0x1234, 0x2300, 0xB300, 0x00EE, 0x3000, 0x4000, 0x5010, 0x9010, 0xE09E, 0xE0A1, 0xF00A, 0xF015, 0xF018,
      0xD011, 0x0000] : List Word).all (fun w => after w (stack [0x0202]) fun t => t.err == .none) = true ∧
    after 0xF00A (pressed State.reset [15]) (fun t => t.err == .none) = true ∧
    after 0x3000 { State.reset with pc := 0xFFFE } (fun t => t.err == .none) = true := by decide

theorem witness_CompletedStepTicksBothTimers :
    after 0xF015 ((regs [(0, 0xFF)]).setSt 0) (fun t => t.err == .none) = true ∧
    after 0xF018 ((regs [(0, 0)]).setDt 0xFF) (fun t => t.err == .none) = true ∧
    after 0x00E0 ((regs []).setDt 1) (fun t => t.err == .none) = true := by decide

theorem witness_HaltedCoreDoesNothingUntilReset :
    (State.reset.raise .callStackEmpty).err ≠ .none ∧ (List.replicate 3584 (0 : Byte)).length ≤ 3584 :=
  ⟨by decide, by rw [List.length_replicate]⟩

theorem witness_ErrorsComeFromCallAndReturnAlone :
    (stack fullStack).err = .none ∧ (stack fullStack).stk.length = 32 ∧
    gives (.call 0x300) (stack fullStack) (fun t => t.err == .callStackFull) = true ∧
    State.reset.err = .none ∧ State.reset.stk = [] ∧
    gives .ret State.reset (fun t => t.err == .callStackEmpty) = true ∧
    gives (.call 0x300) (stack (fullStack.take 31)) (fun t => t.err == .none) = true := by decide

theorem witness_FaultingStepSetsErrAndHalts :
    (let s := (stack fullStack).placeWord 0x2300
     s.err = .none ∧ decode s.cfg s.fetchWord = .call 0x300 ∧ s.stk.length = 32) ∧
    (let s := State.reset.placeWord 0x00EE
     s.err = .none ∧ decode s.cfg s.fetchWord = .ret ∧ s.stk = []) := by decide

/-- Instructions outside each list of writers that give a next state. -/
theorem witness_fixed_writers :
    ([.cls, .drw 0 1 5, .ldVxMem 15, .ldI 0x300] : List Instr).all (fun i => gives i State.reset fun _ => true) = true ∧
    ([.ldB 0, .ldMemVx 15, .addI 0, .ldF 0, .ldDTVx 0, .ldSTVx 0] : List Instr).all
      (fun i => gives i State.reset fun _ => true) = true := by decide

theorem witness_SixInstructionsWriteTheFlag :
    gives (.addReg vf 1) State.reset (fun t => t.cfg.vfPriority == .flag) = true ∧
    gives (.shl 14 vf) State.reset (fun _ => (14 : Reg) != vf) = true ∧
    gives (.ldVxMem 14) State.reset (fun _ => (14 : Reg) != vf) = true ∧
    gives (.ldVxK 14) (pressed State.reset [15]) (fun _ => (14 : Reg) != vf) = true := by decide

theorem witness_StepKeepsKeysAndParameters :
    after 0xF00A (pressed State.reset [5]) (fun _ => true) = true := by decide

theorem witness_HighAddressBitsAreInvisible :
    let s := (stack [0x0FFE]).placeWord 0xF155
    LooksAlike s { s with pc := 0xF200, idx := 0x3000, stk := [0x1FFE] } ∧
      after 0xF155 (stack [0x0FFE]) (fun _ => true) = true :=
  ⟨⟨by decide, by decide, by decide, rfl⟩, by decide⟩

theorem witness_EveryStepKeepsTheInvariant :
    let s := (stack (fullStack.take 31)).placeWord 0x2300
    s.Inv ∧ after 0x2300 (stack (fullStack.take 31)) (fun t => t.stk.length == 32) = true :=
  ⟨⟨by decide, by decide, by decide⟩, by decide⟩

theorem witness_EveryReachableStateMeetsTheInvariant :
    Reachable Config.default ((State.reset.resetWithImage [0x60, 0x05]).setKeys (Vector.replicate 16 true)) ∧
    Reachable Config.default ((State.reset.resetWithImage (List.replicate 3585 0)).setKeys (Vector.replicate 16 true)) :=
  ⟨.keys _ (.reset _ .powerUp), .keys _ (.reset _ .powerUp)⟩

theorem witness_CanonicalMemoryIsDeterminedByItsBytes :
    Memory.wf (resetByte Config.default) [(0x050, 0x00), (0x200, 0x60), (0xFFF, 0x01)] := by decide

theorem witness_ResetLaysOutMemory (b : Byte) :
    (List.replicate 3584 b).length ≤ 3584 ∧ 3583 < (List.replicate 3584 b).length := by
  simp only [List.length_replicate]; decide

theorem witness_ResetClearsEverythingElse (b : Byte) :
    ([] : List Byte).length ≤ 3584 ∧ (List.replicate 3584 b).length ≤ 3584 := by
  simp only [List.length_replicate]; decide

theorem witness_ResetWithTooLongAnImageFails (b : Byte) :
    3584 < (List.replicate 3585 b).length ∧ (List.replicate 3584 b).length ≤ 3584 := by
  simp only [List.length_replicate]; decide

theorem witness_CallPushesAndJumps :
    0x2300#16 &&& 0xF000#16 = 0x2000#16 ∧ State.reset.stk.length ≠ 32 ∧
    (stack (fullStack.take 31)).stk.length ≠ 32 ∧ (stack fullStack).stk.length = 32 := by decide

theorem witness_ReturnPopsIntoPc :
    0x05EE#16 &&& 0xF0FF#16 = 0x00EE#16 ∧ (stack [0x1234]).stk = 0x1234 :: [] ∧ State.reset.stk = [] := by decide

/-- S10 corrected: call 0x208, return there. -/
def callReturn : State :=
  { State.reset with mem := [(0x200, 0x22), (0x201, 0x08), (0x209, 0xEE)] }

/-- `callReturn` after its call. -/
def callReturn' : State := ((callReturn.advance.push 0x0202).setPc 0x0208).tick

/-- `callReturn'` with every register changed, as the subroutine might. -/
def callReturn'' : State := { callReturn' with v := Vector.replicate 16 0x5A, idx := 0x0300 }

theorem witness_CallThenReturnComesBack :
    (callReturn.err = .none ∧ callReturn.stk.length ≠ 32 ∧
      decode callReturn.cfg callReturn.fetchWord = .call 0x208 ∧ step callReturn = .next callReturn') ∧
    (callReturn''.err = .none ∧ callReturn''.stk = callReturn'.stk ∧
      decode callReturn''.cfg callReturn''.fetchWord = .ret ∧
      step callReturn'' = .next { callReturn'' with stk := [], pc := 0x0202 }.tick) ∧
    (stack (fullStack.take 31)).stk.length ≠ 32 ∧
    (stack [0x1234]).stk = 0x1234 :: [] ∧
    (stack fullStack).err = .none ∧ (stack fullStack).stk.length = 32 ∧
    exec (.call 0x208) (stack fullStack) = .next ((stack fullStack).raise .callStackFull) :=
  ⟨⟨by decide, by decide, by decide, rfl⟩, ⟨by decide, by decide, by decide, rfl⟩, by decide, by decide,
    by decide, by decide, rfl⟩

/-- A timer load and the read after it, 10 in `V0`. -/
def timerPair : State :=
  { regs [(0, 10)] with mem := [(0x200, 0xF0), (0x201, 0x15), (0x202, 0xF2), (0x203, 0x07)] }

/-- `timerPair` after its load. -/
def timerPair' : State := (timerPair.advance.setDt 10).tick

theorem witness_TimerLoadedThenReadIsOneLess :
    timerPair.err = .none ∧ decode timerPair.cfg timerPair.fetchWord = .ldDTVx 0 ∧
    step timerPair = .next timerPair' ∧ decode timerPair'.cfg timerPair'.fetchWord = .ldVxDT 2 ∧
    step timerPair' = .next (timerPair'.advance.setReg 2 9).tick := ⟨by decide, by decide, rfl, by decide, rfl⟩

/-- A register block over both bytes of the next word, over its low byte only, over its high byte only,
and nowhere near it. -/
theorem witness_StoredRegistersAreFetchedNext :
    after 0xF155 ((regs [(0, 0x12), (1, 0x0C)]).setIdx 0x1202) (fun t => t.fetchWord == 0x120C) = true ∧
    after 0xF155 ((regs [(0, 0x12), (1, 0x0C)]).setIdx 0x0203) (fun t => t.fetchWord == 0x0012) = true ∧
    after 0xF155 ((regs [(0, 0x12), (1, 0x0C)]).setIdx 0x0201) (fun t => t.fetchWord == 0x0C00) = true ∧
    after 0xF155 ((regs [(0, 0x12), (1, 0x0C)]).setIdx 0x0204) (fun t => t.fetchWord == 0x0000) = true ∧
    (let s := State.reset.placeWord 0xF155
     s.err = .none ∧ decode s.cfg s.fetchWord = .ldMemVx 1) := by decide

/-- The digits 2 3 4 over both bytes, over one byte, and across the end of memory. -/
theorem witness_StoredDigitsAreFetchedNext :
    after 0xF033 ((regs [(0, 234)]).setIdx 0x0202) (fun t => t.fetchWord == 0x0203) = true ∧
    after 0xF033 ((regs [(0, 234)]).setIdx 0x0200) (fun t => t.fetchWord == 0x0400) = true ∧
    after 0xF033 { (regs [(0, 234)]) with idx := 0x0FFF, pc := 0x0FFD } (fun t => t.fetchWord == 0x0203) = true ∧
    (let s := State.reset.placeWord 0xF033
     s.err = .none ∧ decode s.cfg s.fetchWord = .ldB 0) := by decide

/-- A sprite of one lit pixel and one toggled to unlit. -/
def twice : State := bytesAt (toggled (regs [(0, 63), (1, 31)]) [(63, 31)]) 0x0300 [0xC0]

theorem witness_DrawingTwiceRestoresTheGrid :
    gives (.drw 0 1 1) twice (fun t => t.reg 0 == twice.reg 0 && t.reg 1 == twice.reg 1 &&
      gives (.drw 0 1 1) t (fun _ => true)) = true := by decide

theorem witness_KeySkipsTestTheNamedKey :
    ((10 : Fin 16).val = ((regs [(4, 0x1A)]).reg 4).toNat % 16 ∧ (regs [(4, 0x1A)]).cfg.keyIndex = .mask4) ∧
    ((15 : Fin 16).val = (((under faultPolicy).setReg 4 15).reg 4).toNat % 16 ∧
      (((under faultPolicy).setReg 4 15).reg 4).toNat ≤ 15) := by decide

theorem witness_KeySkipsRefuseAboveFifteenUnderFault :
    ((under faultPolicy).setReg 4 16).cfg.keyIndex = .fault ∧
    15 < (((under faultPolicy).setReg 4 16).reg 4).toNat := by decide

theorem witness_KeyWaitTakesTheLowestKeyOrRewinds :
    0xF20A#16 &&& 0xF0FF#16 = 0xF00A#16 ∧
    ((pressed State.reset [15]).key 15 = true ∧ ∀ j < 15, (pressed State.reset [15]).key j = false) ∧
    ((pressed State.reset [0, 15]).key 0 = true ∧ ∀ j < 0, (pressed State.reset [0, 15]).key j = false) ∧
    (∀ k, State.reset.key k = false) := by decide

theorem witness_WaitingStepOnlyTicks :
    let s := State.reset.placeWord 0xF00A
    s.err = .none ∧ decode s.cfg s.fetchWord = .ldVxK 0 ∧ ∀ k, s.key k = false := by decide

theorem witness_FallbackOnlyAdvancesAndTicks :
    let s := State.reset.placeWord 0x8AB8
    s.err = .none ∧ s.cfg = Config.default ∧ ∀ r ∈ opcodeMap, r.selects s.fetchWord = false := by decide

theorem witness_KeyUpdateWritesTheKeysAlone :
    let k := (pressed State.reset [3, 9]).keys
    k[(3 : Fin 16)] = true ∧ ∀ l : Fin 16, l < 3 → k[l] = false := by decide

end Sys2Proof.Tests
end

section
/-! PROOFS. What one handler can have done, read backwards: a lemma for each meaning with cases of its
own, and the tables of `partsOf` read for the pieces of state that few instructions change. -/

namespace Sys2Proof.Machine

variable {i : Instr} {s t : State}

/-! ## The meanings with a case of their own, from their next state -/

/-- `RET` that gives a next state (spec/40_control_flow.md R101). -/
theorem exec_ret_next (h : exec .ret s = .next t) :
    (∃ a rest, s.stk = a :: rest ∧ t = { s with stk := rest, pc := a }) ∨
    (s.stk = [] ∧ t = s.raise .callStackEmpty) := by
  cases hs : s.stk with
  | nil => rw [exec_ret_nil hs] at h; cases h; exact .inr ⟨rfl, rfl⟩
  | cons a rest => rw [exec_ret_cons hs] at h; cases h; exact .inl ⟨a, rest, rfl, rfl⟩

/-- `CALL nnn` that gives a next state (R104). -/
theorem exec_call_next {nnn : Addr} (h : exec (.call nnn) s = .next t) :
    (s.stk.length ≠ 32 ∧ t = (s.push s.pc).setPc (addrWord nnn)) ∨
    (s.stk.length = 32 ∧ t = s.raise .callStackFull) := by
  by_cases hd : s.stk.length = 32
  · rw [exec_call_full hd] at h; cases h; exact .inr ⟨hd, rfl⟩
  · rw [exec_call_room hd] at h; cases h; exact .inl ⟨hd, rfl⟩

/-- `SKP Vx` that gives a next state has a key index (spec/44_keypad.md R160, R163). -/
theorem exec_skp_next {x : Reg} (h : exec (.skp x) s = .next t) :
    ∃ k, keyIndex s.cfg.keyIndex (s.reg x) = some k ∧ t = s.skipIf (s.key k) := by
  cases hk : keyIndex s.cfg.keyIndex (s.reg x) with
  | none => rw [exec_skp_refused hk] at h; cases h
  | some k => rw [exec_skp hk] at h; cases h; exact ⟨k, rfl, rfl⟩

/-- `SKNP Vx` that gives a next state has a key index (R161, R163). -/
theorem exec_sknp_next {x : Reg} (h : exec (.sknp x) s = .next t) :
    ∃ k, keyIndex s.cfg.keyIndex (s.reg x) = some k ∧ t = s.skipIf (!s.key k) := by
  cases hk : keyIndex s.cfg.keyIndex (s.reg x) with
  | none => rw [exec_sknp_refused hk] at h; cases h
  | some k => rw [exec_sknp hk] at h; cases h; exact ⟨k, rfl, rfl⟩

/-- `LD Vx, K` that gives a next state (R162). -/
theorem exec_ldVxK_next {x : Reg} (h : exec (.ldVxK x) s = .next t) :
    (∃ k, s.lowestKey = some k ∧ t = s.setReg x (BitVec.ofNat 8 k)) ∨
    (s.lowestKey = none ∧ t = s.rewind) := by
  cases hk : s.lowestKey with
  | none => rw [exec_ldVxK_waiting hk] at h; cases h; exact .inr ⟨rfl, rfl⟩
  | some k => rw [exec_ldVxK_pressed hk] at h; cases h; exact .inl ⟨k, rfl, rfl⟩

/-! ## Who can change a piece of state -/

theorem idx_mem_partsOf :
    .idx ∈ partsOf i ↔ (∃ a, i = .ldI a) ∨ (∃ x, i = .addI x) ∨ ∃ x, i = .ldF x := by
  cases i <;> simp [partsOf]

theorem dt_mem_partsOf : .dt ∈ partsOf i ↔ ∃ x, i = .ldDTVx x := by
  cases i <;> simp [partsOf]

theorem st_mem_partsOf : .st ∈ partsOf i ↔ ∃ x, i = .ldSTVx x := by
  cases i <;> simp [partsOf]

theorem err_mem_partsOf : .err ∈ partsOf i ↔ i = .ret ∨ ∃ nnn, i = .call nnn := by
  cases i <;> simp [partsOf]

theorem stk_mem_partsOf : .stk ∈ partsOf i ↔ i = .ret ∨ ∃ nnn, i = .call nnn := by
  cases i <;> simp [partsOf]

theorem keys_not_mem_partsOf (i : Instr) : .keys ∉ partsOf i := by
  cases i <;> simp [partsOf]

theorem cfg_not_mem_partsOf (i : Instr) : .cfg ∉ partsOf i := by
  cases i <;> simp [partsOf]

/-- A handler leaves `I` alone unless it is one of its three writers (spec/10_state.md R22). -/
theorem exec_idx (h : exec i s = .next t) (hI : ∀ a, i ≠ .ldI a) (hA : ∀ x, i ≠ .addI x)
    (hF : ∀ x, i ≠ .ldF x) : t.idx = s.idx :=
  exec_onlyChanges h .idx fun hm => by
    rcases idx_mem_partsOf.mp hm with ⟨a, rfl⟩ | ⟨x, rfl⟩ | ⟨x, rfl⟩
    · exact hI a rfl
    · exact hA x rfl
    · exact hF x rfl

/-- A handler leaves `DT` alone unless it loads it (R24). -/
theorem exec_dt (h : exec i s = .next t) (hi : ∀ x, i ≠ .ldDTVx x) : t.dt = s.dt :=
  exec_onlyChanges h .dt fun hm => (dt_mem_partsOf.mp hm).elim hi

/-- A handler leaves `ST` alone unless it loads it (R25). -/
theorem exec_st (h : exec i s = .next t) (hi : ∀ x, i ≠ .ldSTVx x) : t.st = s.st :=
  exec_onlyChanges h .st fun hm => (st_mem_partsOf.mp hm).elim hi

/-- No handler changes the parameters (R32 (e)). -/
theorem exec_cfg (h : exec i s = .next t) : t.cfg = s.cfg :=
  exec_onlyChanges h .cfg (cfg_not_mem_partsOf i)

end Sys2Proof.Machine
end

section
/-! PROOFS. The invariant (spec/10_state.md R34): every handler, every step and every move of the host
keeps it. -/

namespace Sys2Proof.Machine

variable {i : Instr} {s t : State}

/-! ## What a handler does to the pieces the invariant speaks of -/

/-- A handler raises no error but the two of the call stack (spec/60_exceptions.md R182, R183). -/
theorem exec_err (h : exec i s = .next t) :
    t.err = s.err ∨ t.err = .callStackFull ∨ t.err = .callStackEmpty := by
  by_cases hm : .err ∈ partsOf i
  · rcases err_mem_partsOf.mp hm with rfl | ⟨nnn, rfl⟩
    · rcases exec_ret_next h with ⟨a, rest, -, rfl⟩ | ⟨-, rfl⟩
      · exact .inl rfl
      · exact .inr (.inr rfl)
    · rcases exec_call_next h with ⟨-, rfl⟩ | ⟨-, rfl⟩
      · exact .inl rfl
      · exact .inr (.inl rfl)
  · exact .inl (exec_onlyChanges h .err hm)

/-- No handler takes the stack past its 32 entries: the one that pushes tests its depth first
(spec/40_control_flow.md R104). -/
theorem exec_depth (h : exec i s = .next t) (hs : s.depth ≤ stackCap) : t.depth ≤ stackCap := by
  unfold State.depth at *
  by_cases hm : .stk ∈ partsOf i
  · rcases stk_mem_partsOf.mp hm with rfl | ⟨nnn, rfl⟩
    · rcases exec_ret_next h with ⟨a, rest, hstk, rfl⟩ | ⟨-, rfl⟩
      · rw [hstk, List.length_cons] at hs
        exact Nat.le_of_succ_le hs
      · exact hs
    · rcases exec_call_next h with ⟨hroom, rfl⟩ | ⟨-, rfl⟩
      · exact Nat.lt_of_le_of_ne hs hroom
      · exact hs
  · rwa [show t.stk = s.stk from exec_onlyChanges h .stk hm]

/-- The list of cells after a handler is the one before it, or that of a sequence of byte writes
(spec/20_memory.md R59). -/
theorem exec_mem (h : exec i s = .next t) :
    t.mem = s.mem ∨ ∃ a bs, t.mem = (s.writeBytes a bs).mem := by
  cases i
  case ldB | ldMemVx => cases h; exact .inr ⟨_, _, rfl⟩
  case ret => rcases exec_ret_next h with ⟨a, rest, -, rfl⟩ | ⟨-, rfl⟩ <;> exact .inl rfl
  case call => rcases exec_call_next h with ⟨-, rfl⟩ | ⟨-, rfl⟩ <;> exact .inl rfl
  case skp => obtain ⟨k, -, rfl⟩ := exec_skp_next h; exact .inl (s.skipIf_mem _)
  case sknp => obtain ⟨k, -, rfl⟩ := exec_sknp_next h; exact .inl (s.skipIf_mem _)
  case ldVxK => rcases exec_ldVxK_next h with ⟨k, -, rfl⟩ | ⟨-, rfl⟩ <;> exact .inl rfl
  case seImm | sneImm | seReg | sneReg => cases h; exact .inl (s.skipIf_mem _)
  case addReg | subReg | shr | subnReg | shl => cases h; exact .inl (s.writeResult_mem _ _ _)
  all_goals cases h; exact .inl rfl

/-- A handler keeps memory in canonical form. -/
theorem exec_wf (h : exec i s = .next t) (hs : Memory.wf (resetByte s.cfg) s.mem) :
    Memory.wf (resetByte t.cfg) t.mem := by
  rw [exec_cfg h]
  rcases exec_mem h with hm | ⟨a, bs, hm⟩
  · rwa [hm]
  · rw [hm]; exact s.writeBytes_wf a bs hs

/-! ## The invariant along handlers, steps and the host's moves -/

theorem exec_inv (h : exec i s = .next t) (hs : s.Inv) : t.Inv where
  reachableError := by
    rcases exec_err h with he | he | he
    · rw [he]; exact hs.reachableError
    all_goals rw [he]; decide
  depthBound := exec_depth h hs.depthBound
  memoryCanonical := exec_wf h hs.memoryCanonical

/-- Taking any error but the impossible one keeps the invariant. -/
theorem State.Inv.raise (hs : s.Inv) {e : ErrorCode} (he : e ≠ .invalidAddressingMode) :
    (s.raise e).Inv :=
  ⟨he, hs.depthBound, hs.memoryCanonical⟩

theorem State.Inv.setKeys (hs : s.Inv) (k : Vector Bool 16) : (s.setKeys k).Inv :=
  ⟨hs.reachableError, hs.depthBound, hs.memoryCanonical⟩

theorem step_inv (h : step s = .next t) (hs : s.Inv) : t.Inv := by
  rcases step_cases h with ⟨-, rfl⟩ | ⟨-, u, hu, ⟨-, rfl⟩ | ⟨-, rfl⟩⟩
  · exact hs
  all_goals
    have ha : s.advance.Inv := ⟨hs.reachableError, hs.depthBound, hs.memoryCanonical⟩
    have hui : u.Inv := exec_inv hu ha
  · exact ⟨hui.reachableError, hui.depthBound, hui.memoryCanonical⟩
  · exact hs.raise hui.reachableError

/-- What no handler changes and no tick, advance or error moves, no step changes. -/
theorem step_same {p : Part} (h : step s = .next t) (hi : ∀ i, p ∉ partsOf i)
    (hp : p ∉ [.pc, .dt, .st, .err]) : Part.same s t p := by
  simp only [List.mem_cons, List.not_mem_nil, or_false, not_or] at hp
  obtain ⟨hpc, hdt, hst, herr⟩ := hp
  rcases step_cases h with ⟨-, rfl⟩ | ⟨-, u, hu, ⟨-, rfl⟩ | ⟨-, rfl⟩⟩
  · exact OnlyChanges.refl [] t p (by simp)
  · have ha : Part.same s s.advance p := onlyChanges_advance p (by simp [hpc])
    have hx : Part.same s.advance u p := exec_onlyChanges hu p (hi _)
    exact Part.same_trans (Part.same_trans ha hx) (onlyChanges_tick p (by simp [hdt, hst]))
  · exact onlyChanges_raise p (by simp [herr])

/-- No step changes the parameters (spec/10_state.md R32 (e)). -/
theorem step_cfg (h : step s = .next t) : t.cfg = s.cfg :=
  step_same h cfg_not_mem_partsOf (by decide)

/-- No step changes the key states (R27). -/
theorem step_keys (h : step s = .next t) : t.keys = s.keys :=
  step_same h keys_not_mem_partsOf (by decide)

theorem resetWith_inv (c : Config) : (State.resetWith c).Inv where
  reachableError := nofun
  depthBound := Nat.zero_le _
  memoryCanonical := Memory.wf_nil _

/-- A reset with any image leaves the parameters (R32 (e)). -/
theorem resetWithImage_cfg (s : State) (image : List Byte) : (s.resetWithImage image).cfg = s.cfg := by
  rcases Nat.lt_or_ge 3584 image.length with h | h
  · rw [s.resetWithImage_tooLong h]; rfl
  · rw [s.resetWithImage_fits h]; rfl

/-- A reset with any image meets the invariant, whatever the state before it. -/
theorem resetWithImage_inv (s : State) (image : List Byte) : (s.resetWithImage image).Inv := by
  rcases Nat.lt_or_ge 3584 image.length with h | h
  · rw [s.resetWithImage_tooLong h]
    exact ⟨by rw [s.failedReset_err]; decide, s.failedReset_depth image, s.failedReset_wf image⟩
  · rw [s.resetWithImage_fits h]
    have hz := resetWith_inv s.cfg
    exact ⟨hz.reachableError, hz.depthBound,
      (State.resetWith s.cfg).writeBytes_wf _ image hz.memoryCanonical⟩

theorem Reachable.inv {c : Config} (h : Reachable c s) : s.Inv := by
  induction h with
  | powerUp => exact resetWith_inv c
  | @reset s image _ _ => exact resetWithImage_inv s image
  | keys k _ ih => exact ih.setKeys k
  | step _ hst ih => exact step_inv hst ih

theorem Reachable.cfg {c : Config} (h : Reachable c s) : s.cfg = c := by
  induction h with
  | powerUp => rfl
  | @reset s image _ ih => rw [resetWithImage_cfg, ih]
  | keys k _ ih => exact ih
  | step _ hst ih => rw [step_cfg hst, ih]

end Sys2Proof.Machine

namespace Sys2Proof.Proofs

open Sys2Proof.Machine

/-- Settles O20: a step is a handler run on the advanced state, which keeps each clause, and then a tick
or an error taken in the state before it. -/
theorem everyStepKeepsTheInvariant : Obligations.EveryStepKeepsTheInvariant :=
  fun _ _ hs h => step_inv h hs

/-- Settles O16, from the table of what each handler can change. -/
theorem indexAndTimersHaveFixedWriters : Obligations.IndexAndTimersHaveFixedWriters :=
  fun _ _ _ h => ⟨exec_idx h, exec_dt h, exec_st h⟩

/-- Settles O18: no handler has the keys or the parameters among the pieces it can change. -/
theorem stepKeepsKeysAndParameters : Obligations.StepKeepsKeysAndParameters :=
  fun _ _ h => ⟨step_keys h, step_cfg h⟩

/-- Settles O22, by induction on the sequence of the host's moves. -/
theorem everyReachableStateMeetsTheInvariant : Obligations.EveryReachableStateMeetsTheInvariant :=
  fun _ _ h => ⟨h.inv, h.cfg⟩

/-- Settles O21: an empty stack, no error and an empty list of cells. -/
theorem resetMeetsTheInvariant : Obligations.ResetMeetsTheInvariant :=
  ⟨resetWith_inv Config.default, resetWith_inv⟩

end Sys2Proof.Proofs
end

section
/-! PROOFS. Bits 15 to 12 of `pc`, `I` and the stack entries are invisible (spec/10_state.md R22, R23, R26):
states that look alike read alike, every shared operation takes them to states that look alike, and so
do the handlers and the step. -/

namespace Sys2Proof.Machine

variable {s t u v : State}

/-! ## What two such states share -/

/-- A state with another `pc`, `I` and stack. -/
def State.withAddresses (s : State) (pc idx : Word) (stk : List Word) : State :=
  { s with pc := pc, idx := idx, stk := stk }

/-- The second of two states that look alike is the first with another `pc`, `I` and stack. -/
theorem LooksAlike.exists_eq (h : LooksAlike s t) : ∃ pc idx stk, t = s.withAddresses pc idx stk :=
  ⟨t.pc, t.idx, t.stk, congrArg (·.withAddresses t.pc t.idx t.stk) h.rest.symm⟩

theorem LooksAlike.cfg (h : LooksAlike s t) : t.cfg = s.cfg := by
  obtain ⟨_, _, _, rfl⟩ := h.exists_eq; rfl

theorem LooksAlike.reg (h : LooksAlike s t) (r : Reg) : t.reg r = s.reg r := by
  obtain ⟨_, _, _, rfl⟩ := h.exists_eq; rfl

theorem LooksAlike.dt (h : LooksAlike s t) : t.dt = s.dt := by
  obtain ⟨_, _, _, rfl⟩ := h.exists_eq; rfl

theorem LooksAlike.disp (h : LooksAlike s t) : t.disp = s.disp := by
  obtain ⟨_, _, _, rfl⟩ := h.exists_eq; rfl

theorem LooksAlike.err (h : LooksAlike s t) : t.err = s.err := by
  obtain ⟨_, _, _, rfl⟩ := h.exists_eq; rfl

theorem LooksAlike.key (h : LooksAlike s t) (k : Fin 16) : t.key k = s.key k := by
  obtain ⟨_, _, _, rfl⟩ := h.exists_eq; rfl

theorem LooksAlike.lowestKey (h : LooksAlike s t) : t.lowestKey = s.lowestKey := by
  obtain ⟨_, _, _, rfl⟩ := h.exists_eq; rfl

theorem LooksAlike.regBlock (h : LooksAlike s t) (x : Reg) : t.regBlock x = s.regBlock x := by
  obtain ⟨_, _, _, rfl⟩ := h.exists_eq; rfl

theorem LooksAlike.randomByte (h : LooksAlike s t) : t.randomByte = s.randomByte := by
  obtain ⟨_, _, _, rfl⟩ := h.exists_eq; rfl

theorem LooksAlike.stk_length (h : LooksAlike s t) : t.stk.length = s.stk.length := by
  simpa using (congrArg List.length h.stk).symm

/-- Only the low 12 bits of an address reach memory (spec/20_memory.md R51). -/
theorem LooksAlike.readByte (h : LooksAlike s t) {a a' : Word}
    (ha : a.toNat % 4096 = a'.toNat % 4096) : t.readByte a' = s.readByte a := by
  obtain ⟨_, _, _, rfl⟩ := h.exists_eq
  exact s.readByte_congr (by simp only [State.maskAddr_toNat, ha])

/-- Adding to an address keeps its high bits out of its low ones. -/
theorem add_mod4096_congr {a a' : Word} (ha : a.toNat % 4096 = a'.toNat % 4096) (d : Word) :
    (a + d).toNat % 4096 = (a' + d).toNat % 4096 := by
  simp only [BitVec.toNat_add]
  omega

theorem LooksAlike.fetchWord (h : LooksAlike s t) : t.fetchWord = s.fetchWord := by
  unfold State.fetchWord
  rw [h.readByte h.pc, h.readByte (add_mod4096_congr h.pc 1#16)]

theorem LooksAlike.readBytes (h : LooksAlike s t) (n : Nat) {a a' : Word}
    (ha : a.toNat % 4096 = a'.toNat % 4096) : t.readBytes a' n = s.readBytes a n := by
  induction n generalizing a a' with
  | zero => rfl
  | succ n ih => simp only [State.readBytes, h.readByte ha, ih (add_mod4096_congr ha 1#16)]

theorem LooksAlike.sprite (h : LooksAlike s t) (x y : Reg) (n : Nibble) :
    t.sprite x y n = s.sprite x y n := by
  simp only [State.sprite, h.cfg, h.reg, h.readBytes n.toNat h.idx]

/-! ## What the shared operations keep -/

theorem LooksAlike.setPc (h : LooksAlike s t) {a a' : Word}
    (ha : a.toNat % 4096 = a'.toNat % 4096) : LooksAlike (s.setPc a) (t.setPc a') :=
  ⟨ha, h.idx, h.stk, h.rest⟩

theorem LooksAlike.advance (h : LooksAlike s t) : LooksAlike s.advance t.advance :=
  h.setPc (add_mod4096_congr h.pc 2#16)

theorem LooksAlike.rewind (h : LooksAlike s t) : LooksAlike s.rewind t.rewind := by
  refine h.setPc ?_
  simpa only [BitVec.sub_eq_add_neg] using add_mod4096_congr h.pc (-2#16)

theorem LooksAlike.skipIf (h : LooksAlike s t) (c : Bool) : LooksAlike (s.skipIf c) (t.skipIf c) := by
  cases c
  · exact h
  · exact h.advance

theorem LooksAlike.setIdx (h : LooksAlike s t) {a a' : Word}
    (ha : a.toNat % 4096 = a'.toNat % 4096) : LooksAlike (s.setIdx a) (t.setIdx a') :=
  ⟨h.pc, ha, h.stk, h.rest⟩

theorem LooksAlike.setStk (h : LooksAlike s t) {l l' : List Word}
    (hl : l.map (·.toNat % 4096) = l'.map (·.toNat % 4096)) :
    LooksAlike { s with stk := l } { t with stk := l' } :=
  ⟨h.pc, h.idx, hl, h.rest⟩

theorem LooksAlike.push (h : LooksAlike s t) {a a' : Word}
    (ha : a.toNat % 4096 = a'.toNat % 4096) : LooksAlike (s.push a) (t.push a') :=
  h.setStk (by simp only [List.map_cons, ha, h.stk])

/-- An operation that neither reads nor writes `pc`, `I` and the stack keeps two states alike. -/
theorem LooksAlike.map (h : LooksAlike s t) (f : State → State)
    (hf : ∀ (r : State) pc idx stk,
      f (r.withAddresses pc idx stk) = (f r).withAddresses pc idx stk) :
    LooksAlike (f s) (f t) := by
  obtain ⟨pc, idx, stk, rfl⟩ := h.exists_eq
  have hs : f s = (f s).withAddresses s.pc s.idx s.stk := hf s s.pc s.idx s.stk
  rw [hf, hs]
  exact ⟨h.pc, h.idx, h.stk, rfl⟩

theorem LooksAlike.raise (h : LooksAlike s t) (e : ErrorCode) : LooksAlike (s.raise e) (t.raise e) :=
  h.map (·.raise e) fun _ _ _ _ => rfl

theorem LooksAlike.setDt (h : LooksAlike s t) (b : Byte) : LooksAlike (s.setDt b) (t.setDt b) :=
  h.map (·.setDt b) fun _ _ _ _ => rfl

theorem LooksAlike.setSt (h : LooksAlike s t) (b : Byte) : LooksAlike (s.setSt b) (t.setSt b) :=
  h.map (·.setSt b) fun _ _ _ _ => rfl

theorem LooksAlike.tick (h : LooksAlike s t) : LooksAlike s.tick t.tick :=
  h.map State.tick fun _ _ _ _ => rfl

theorem LooksAlike.setDisp (h : LooksAlike s t) (d : Display) :
    LooksAlike (s.setDisp d) (t.setDisp d) :=
  h.map (·.setDisp d) fun _ _ _ _ => rfl

theorem LooksAlike.consumeDraw (h : LooksAlike s t) : LooksAlike s.consumeDraw t.consumeDraw :=
  h.map State.consumeDraw fun _ _ _ _ => rfl

theorem LooksAlike.setReg (h : LooksAlike s t) (r : Reg) (b : Byte) :
    LooksAlike (s.setReg r b) (t.setReg r b) :=
  h.map (·.setReg r b) fun _ _ _ _ => rfl

theorem LooksAlike.writeResult (h : LooksAlike s t) (x : Reg) (res : Byte) (flag : Bool) :
    LooksAlike (s.writeResult x res flag) (t.writeResult x res flag) := by
  unfold State.writeResult
  rw [h.cfg]
  cases s.cfg.vfPriority
  · exact (h.setReg x res).setReg vf _
  · exact (h.setReg vf _).setReg x res

theorem LooksAlike.writeByte (h : LooksAlike s t) {a a' : Word}
    (ha : a.toNat % 4096 = a'.toNat % 4096) (b : Byte) :
    LooksAlike (s.writeByte a b) (t.writeByte a' b) := by
  have hm : t.writeByte a' b = t.writeByte a b := by
    simp only [State.writeByte, State.maskAddr_toNat, ha]
  rw [hm]
  exact h.map (·.writeByte a b) fun _ _ _ _ => rfl

theorem LooksAlike.writeBytes (h : LooksAlike s t) {a a' : Word}
    (ha : a.toNat % 4096 = a'.toNat % 4096) (bs : List Byte) :
    LooksAlike (s.writeBytes a bs) (t.writeBytes a' bs) := by
  induction bs generalizing s t a a' with
  | nil => exact h
  | cons b bs ih => exact ih (h.writeByte ha b) (add_mod4096_congr ha 1#16)

/-- The two block loads read the same bytes. -/
theorem LooksAlike.loadBlock_v (h : LooksAlike s t) (x : Reg) :
    (t.loadBlock x).v = (s.loadBlock x).v := by
  refine Vector.ext fun k hk => ?_
  have hr : (t.loadBlock x).reg ⟨k, hk⟩ = (s.loadBlock x).reg ⟨k, hk⟩ := by
    simp only [State.reg_loadBlock, h.reg, State.effAddr, h.readByte (add_mod4096_congr h.idx _)]
  exact hr

theorem LooksAlike.loadBlock (h : LooksAlike s t) (x : Reg) :
    LooksAlike (s.loadBlock x) (t.loadBlock x) := by
  have ht : t.loadBlock x = { t with v := (s.loadBlock x).v } := by
    rw [← h.loadBlock_v]; rfl
  rw [ht]
  exact h.map (fun r => { r with v := (s.loadBlock x).v }) fun _ _ _ _ => rfl

/-! ## Handlers -/

/-- Two outcomes that differ at most in next states that look alike. -/
inductive OutcomesAlike : Host.Outcome State Fault Refusal → Host.Outcome State Fault Refusal → Prop
  | next {s t : State} : LooksAlike s t → OutcomesAlike (.next s) (.next t)
  | fault (f : Fault) : OutcomesAlike (.fault f) (.fault f)
  | refused (r : Refusal) : OutcomesAlike (.refused r) (.refused r)

theorem execRet_alike (h : LooksAlike s t) : OutcomesAlike (exec .ret s) (exec .ret t) := by
  have hstk := h.stk
  cases hs : s.stk with
  | nil =>
    have ht : t.stk = [] := by simpa [hs] using hstk.symm
    rw [exec_ret_nil hs, exec_ret_nil ht]
    exact .next (h.raise _)
  | cons a rest =>
    cases ht : t.stk with
    | nil => simp [hs, ht] at hstk
    | cons a' rest' =>
      rw [hs, ht, List.map_cons, List.map_cons, List.cons.injEq] at hstk
      rw [exec_ret_cons hs, exec_ret_cons ht]
      exact .next ((h.setStk hstk.2).setPc hstk.1)

theorem execCall_alike (h : LooksAlike s t) (nnn : Addr) :
    OutcomesAlike (exec (.call nnn) s) (exec (.call nnn) t) := by
  by_cases hd : s.stk.length = 32
  · rw [exec_call_full hd, exec_call_full (h.stk_length.trans hd)]
    exact .next (h.raise _)
  · rw [exec_call_room hd, exec_call_room (h.stk_length ▸ hd)]
    exact .next ((h.push h.pc).setPc rfl)

theorem execSkp_alike (h : LooksAlike s t) (x : Reg) :
    OutcomesAlike (exec (.skp x) s) (exec (.skp x) t) := by
  have hi : keyIndex t.cfg.keyIndex (t.reg x) = keyIndex s.cfg.keyIndex (s.reg x) := by
    rw [h.cfg, h.reg]
  cases hk : keyIndex s.cfg.keyIndex (s.reg x) with
  | none => rw [exec_skp_refused hk, exec_skp_refused (hi.trans hk)]; exact .refused _
  | some k => rw [exec_skp hk, exec_skp (hi.trans hk), h.key]; exact .next (h.skipIf _)

theorem execSknp_alike (h : LooksAlike s t) (x : Reg) :
    OutcomesAlike (exec (.sknp x) s) (exec (.sknp x) t) := by
  have hi : keyIndex t.cfg.keyIndex (t.reg x) = keyIndex s.cfg.keyIndex (s.reg x) := by
    rw [h.cfg, h.reg]
  cases hk : keyIndex s.cfg.keyIndex (s.reg x) with
  | none => rw [exec_sknp_refused hk, exec_sknp_refused (hi.trans hk)]; exact .refused _
  | some k => rw [exec_sknp hk, exec_sknp (hi.trans hk), h.key]; exact .next (h.skipIf _)

theorem execLdVxK_alike (h : LooksAlike s t) (x : Reg) :
    OutcomesAlike (exec (.ldVxK x) s) (exec (.ldVxK x) t) := by
  cases hk : s.lowestKey with
  | none =>
    rw [exec_ldVxK_waiting hk, exec_ldVxK_waiting (h.lowestKey.trans hk)]
    exact .next h.rewind
  | some k =>
    rw [exec_ldVxK_pressed hk, exec_ldVxK_pressed (h.lowestKey.trans hk)]
    exact .next (h.setReg x _)

/-- A handler takes two states that look alike to outcomes that do. -/
theorem exec_alike (i : Instr) (h : LooksAlike s t) : OutcomesAlike (exec i s) (exec i t) := by
  cases i
  case ret => exact execRet_alike h
  case call nnn => exact execCall_alike h nnn
  case skp x => exact execSkp_alike h x
  case sknp x => exact execSknp_alike h x
  case ldVxK x => exact execLdVxK_alike h x
  case cls => exact .next (h.setDisp _)
  case jp nnn => exact .next (h.setPc rfl)
  case jpV0 nnn => exact .next (h.setPc (by rw [h.reg]))
  case seImm | sneImm | seReg | sneReg =>
    simp only [exec, execSeImm, execSneImm, execSeReg, execSneReg, h.reg]
    exact .next (h.skipIf _)
  case ldImm x kk => exact .next (h.setReg x kk)
  case addImm | ldReg | orReg | andReg | xorReg =>
    simp only [exec, execAddImm, execLdReg, execOrReg, execAndReg, execXorReg, h.reg]
    exact .next (h.setReg _ _)
  case addReg | subReg | subnReg | shr | shl =>
    simp only [exec, execAddReg, execSubReg, execSubnReg, execShr, execShl, h.reg]
    exact .next (h.writeResult _ _ _)
  case ldI nnn => exact .next (h.setIdx rfl)
  case addI x =>
    simp only [exec, execAddI, h.reg]
    exact .next (h.setIdx (add_mod4096_congr h.idx _))
  case ldF x =>
    simp only [exec, execLdF, h.reg]
    exact .next (h.setIdx rfl)
  case rnd x kk =>
    simp only [exec, execRnd, h.randomByte]
    exact .next (h.consumeDraw.setReg x _)
  case drw x y n =>
    simp only [exec, execDrw, h.sprite, h.disp]
    exact .next ((h.setDisp _).setReg vf _)
  case ldVxDT x =>
    simp only [exec, execLdVxDT, h.dt]
    exact .next (h.setReg x _)
  case ldDTVx x =>
    simp only [exec, execLdDTVx, h.reg]
    exact .next (h.setDt _)
  case ldSTVx x =>
    simp only [exec, execLdSTVx, h.reg]
    exact .next (h.setSt _)
  case ldB x =>
    simp only [exec, execLdB, h.reg]
    exact .next (h.writeBytes h.idx _)
  case ldMemVx x =>
    simp only [exec, execLdMemVx, h.regBlock]
    exact .next (h.writeBytes h.idx _)
  case ldVxMem x => exact .next (h.loadBlock x)
  case nop raw => exact .next h

/-! ## The step -/

theorem LooksAlike.endStep (h : LooksAlike s t) (hu : LooksAlike u v) :
    LooksAlike (s.endStep u) (t.endStep v) := by
  by_cases he : u.err = .none
  · rw [State.endStep_ok he, State.endStep_ok (hu.err.trans he)]
    exact hu.tick
  · rw [State.endStep_error he, State.endStep_error (hu.err ▸ he), hu.err]
    exact h.raise _

/-- A step takes two states that look alike to outcomes that do. -/
theorem step_alike (h : LooksAlike s t) : OutcomesAlike (step s) (step t) := by
  by_cases he : s.err = .none
  · have hx := exec_alike (decode s.cfg s.fetchWord) h.advance
    rw [step_running he, step_running (h.err.trans he), h.cfg, h.fetchWord]
    generalize exec _ s.advance = o, exec _ t.advance = o' at hx ⊢
    cases hx with
    | next hu => exact .next (h.endStep hu)
    | fault f => exact .fault f
    | refused r => exact .refused r
  · rw [step_halted he, step_halted (h.err ▸ he)]
    exact .next h

end Sys2Proof.Machine

namespace Sys2Proof.Proofs

open Sys2Proof.Machine

/-- Settles O19: addresses reach memory only through their low 12 bits, and every write to `pc`, `I` and
the stack keeps the low 12 bits of the two states equal. -/
theorem highAddressBitsAreInvisible : Obligations.HighAddressBitsAreInvisible := by
  intro s t s' h hs
  have hst := step_alike h
  rw [hs] at hst
  generalize ho : step t = o at hst
  cases hst with
  | next h' => exact ⟨_, rfl, h'⟩

end Sys2Proof.Proofs
end

section
/-! PROOFS. One step of a running core (spec/10_state.md R38): what it runs, where it leaves `pc` (R40),
the timers (R41) and the flag register (R21). -/

namespace Sys2Proof.Machine

variable {i : Instr} {s t : State}

/-! ## The decoded instruction -/

/-- The bytes at `pc` decode to the instruction of the fetched word (R38 (1), (3)). -/
theorem decode_fetchWord_of_decodeBytes
    (h : decodeBytes s.cfg [s.readByte s.pc, s.readByte (s.pc + 1#16)] = .ok (i, [])) :
    decode s.cfg s.fetchWord = i := by
  cases h; rfl

/-! ## Where a handler leaves `pc` -/

@[simp] theorem key_advance (s : State) (k : Fin 16) : s.advance.key k = s.key k := rfl

/-- Adding a small number to `pc`, modulo 65536 (decision D8). -/
theorem pc_add_toNat (a : Word) (d : Nat) : (a + BitVec.ofNat 16 d).toNat = (a.toNat + d) % 65536 := by
  simp

/-- An instruction that does not write `pc` leaves it at the fetch advance. -/
theorem exec_pc_toNat (h : exec i s.advance = .next t) (hi : .pc ∉ partsOf i) :
    t.pc.toNat = (s.pc.toNat + 2) % 65536 := by
  rw [show t.pc = s.pc + 2#16 from exec_onlyChanges h .pc hi]
  exact pc_add_toNat s.pc 2

/-- A skip from the fetch advance (R40). -/
theorem advance_skipIf_pc_toNat (s : State) (c : Bool) :
    (s.advance.skipIf c).pc.toNat = (s.pc.toNat + if c then 4 else 2) % 65536 := by
  cases c
  · exact pc_add_toNat s.pc 2
  · show (s.pc + 2#16 + 2#16).toNat = _
    rw [BitVec.add_assoc]
    exact pc_add_toNat s.pc 4

/-- The rewind takes back the fetch advance (spec/44_keypad.md R162). -/
theorem advance_rewind_pc (s : State) : s.advance.rewind.pc = s.pc :=
  BitVec.add_sub_cancel s.pc 2#16

theorem addrWord_toNat (nnn : Addr) : (addrWord nnn).toNat = nnn.toNat := by
  have := nnn.isLt
  simp only [addrWord, BitVec.toNat_setWidth]
  omega

/-- The target of `JP V0, nnn` never wraps (spec/40_control_flow.md R103). -/
theorem addrWord_add_byteWord_toNat (nnn : Addr) (b : Byte) :
    (addrWord nnn + byteWord b).toNat = nnn.toNat + b.toNat := by
  have := nnn.isLt
  have := b.isLt
  simp only [BitVec.toNat_add, addrWord_toNat, byteWord, BitVec.toNat_setWidth]
  omega

/-! ## What a handler leaves in `VF` -/

theorem flagByte_zero_or_one (b : Bool) : flagByte b = 0 ∨ flagByte b = 1 := by
  cases b
  · exact .inl rfl
  · exact .inr rfl

/-- A result and its flag leave 0 or 1 in `VF`, unless the result lands there too and has priority
(R39 (c)). -/
theorem writeResult_vf_zero_or_one (s : State) {x : Reg} (res : Byte) (flag : Bool)
    (h : x ≠ vf ∨ s.cfg.vfPriority = .flag) :
    (s.writeResult x res flag).reg vf = 0 ∨ (s.writeResult x res flag).reg vf = 1 := by
  rw [s.reg_writeResult_vf, if_neg]
  · exact flagByte_zero_or_one flag
  · rintro ⟨hx, hr⟩
    rcases h with h | h
    · exact h hx
    · rw [hr] at h; cases h

/-- A write to another register leaves `VF` alone. -/
theorem setReg_vf_other (s : State) {x : Reg} (b : Byte) (h : x ≠ vf) :
    (s.setReg x b).reg vf = s.reg vf :=
  s.reg_setReg_other b h.symm

/-- A block load reaches `VF` only when its last register is `VF`. -/
theorem loadBlock_vf_other (s : State) {x : Reg} (h : x ≠ vf) :
    (s.loadBlock x).reg vf = s.reg vf := by
  rw [s.reg_loadBlock, if_neg]
  exact fun hle => h (le_antisymm (Fin.le_last x) hle)

end Sys2Proof.Machine

namespace Sys2Proof.Proofs

open Sys2Proof.Machine

/-- Settles O10: a handler that may write `pc` writes what the table says, and the others leave the fetch
advance. -/
theorem completedStepLeavesPcWhereTheTableSays :
    Obligations.CompletedStepLeavesPcWhereTheTableSays := by
  intro s t he hstep ht
  obtain ⟨u, hu, hue, rfl⟩ := step_completed he hstep ht
  rw [u.tick_pc]
  generalize decode s.cfg s.fetchWord = i at hu
  cases i
  case jp nnn => cases hu; exact addrWord_toNat nnn
  case jpV0 nnn => cases hu; exact addrWord_add_byteWord_toNat nnn _
  case call nnn =>
    rcases exec_call_next hu with ⟨-, rfl⟩ | ⟨-, rfl⟩
    · exact addrWord_toNat nnn
    · cases hue
  case ret =>
    rcases exec_ret_next hu with ⟨a, rest, hstk, rfl⟩ | ⟨-, rfl⟩
    · exact congrArg List.head? hstk
    · cases hue
  case seImm | seReg | sneImm | sneReg =>
    cases hu
    exact (advance_skipIf_pc_toNat s _).trans (by simp)
  case skp x =>
    obtain ⟨k, hk, rfl⟩ := exec_skp_next hu
    exact ⟨k, hk, advance_skipIf_pc_toNat s _⟩
  case sknp x =>
    obtain ⟨k, hk, rfl⟩ := exec_sknp_next hu
    exact ⟨k, hk, (advance_skipIf_pc_toNat s _).trans (by cases h : s.key k <;> simp [h])⟩
  case ldVxK x =>
    rcases exec_ldVxK_next hu with ⟨k, hk, rfl⟩ | ⟨hk, rfl⟩
    · refine ⟨fun _ => pc_add_toNat s.pc 2, fun hnone => ?_⟩
      exact absurd (lowestKey_some.mp hk).1 (by simp [hnone k])
    · refine ⟨fun ⟨k, hpressed⟩ => ?_, fun _ => advance_rewind_pc s⟩
      exact absurd (lowestKey_none.mp hk k) (by simp [hpressed])
  all_goals exact exec_pc_toNat hu (by simp [partsOf])

/-- Settles O11: the tick follows the handler, and only a timer load has moved the timer before it. -/
theorem completedStepTicksBothTimers : Obligations.CompletedStepTicksBothTimers := by
  intro s t he hstep ht
  obtain ⟨u, hu, -, rfl⟩ := step_completed he hstep ht
  rw [u.tick_dt, u.tick_st, tickTimer_toNat, tickTimer_toNat]
  constructor
  · split
    · next x hi => rw [hi] at hu; cases hu; rfl
    · next hi => rw [exec_dt hu hi]; rfl
  · split
    · next x hi => rw [hi] at hu; cases hu; rfl
    · next hi => rw [exec_st hu hi]; rfl

/-- Settles O17: the flag writers go through `writeResult` or write the collision, an ordinary
destination is another register, and no other handler writes a register. -/
theorem sixInstructionsWriteTheFlag : Obligations.SixInstructionsWriteTheFlag := by
  intro i s t h
  cases i
  case addReg | subReg | subnReg | shr | shl => cases h; exact writeResult_vf_zero_or_one s _ _
  case drw x y n =>
    cases h
    rw [State.reg_setReg_same]
    exact flagByte_zero_or_one _
  case ldImm | addImm | ldReg | orReg | andReg | xorReg | ldVxDT => cases h; exact setReg_vf_other s _
  case rnd => cases h; exact setReg_vf_other s.consumeDraw _
  case ldVxK x =>
    rcases exec_ldVxK_next h with ⟨k, -, rfl⟩ | ⟨-, rfl⟩
    · exact setReg_vf_other s _
    · exact fun _ => rfl
  case ldVxMem x => cases h; exact loadBlock_vf_other s
  all_goals exact exec_onlyChanges h .regs (by simp [partsOf]) vf

/-- Settles O7: the bytes at `pc` are the fetched word, and the two ends of a step are the tick and the
error taken in the state before it. -/
theorem stepRunsTheDecodedInstruction : Obligations.StepRunsTheDecodedInstruction := by
  intro s i he hdec
  have hi := decode_fetchWord_of_decodeBytes hdec
  refine ⟨fun t hx => ?_, fun r hx => ?_⟩
  · have hstep : step s = .next (s.endStep t) := step_of_exec he (by rw [hi]; exact hx)
    refine ⟨fun hte => ?_, fun hte => ?_⟩
    · rw [hstep, State.endStep_ok hte]; rfl
    · rw [State.endStep_error hte] at hstep
      exact ⟨s.raise t.err, hstep, rfl, onlyChanges_raise.mono (by simp)⟩
  · rw [step_running he, hi, show exec i s.advance = .refused r from hx]

/-- Settles O25: a reset with an image that fits is the state of `resetWith` but for memory and the
model's counter of draws. -/
theorem resetClearsEverythingElse : Obligations.ResetClearsEverythingElse := by
  intro s image h
  rw [s.resetWithImage_fits h]
  refine ⟨fun r => ?_, rfl, rfl, rfl, rfl, fun k => ?_, fun y x => ?_, rfl, rfl, rfl⟩
  · simp [State.reg, State.resetWith]
  · simp [State.key, State.resetWith]
  · exact if_neg (by simp [Display.lit, State.resetWith])

/-- Settles O56: the key wait run on the updated keys finds the lowest key written as pressed. -/
theorem keyUpdateWritesTheKeysAlone : Obligations.KeyUpdateWritesTheKeysAlone := by
  intro s k
  refine ⟨s.key_setKeys k, onlyChanges_setKeys, fun x j hj hlow => ?_⟩
  have hk : (s.setKeys k).lowestKey = some j := lowestKey_some.mpr ⟨hj, hlow⟩
  refine ⟨_, exec_ldVxK_pressed hk, ?_⟩
  have := j.isLt
  rw [State.reg_setReg_same, BitVec.toNat_ofNat]
  omega

end Sys2Proof.Proofs
end

section
/-! PROOFS. Memory (spec/20_memory.md): who writes it, the display and the stack (R59), what a canonical
list of cells holds, the address map after a reset (R57), and a store that the next step fetches (R63). -/

namespace Sys2Proof.Machine.Memory

variable {bg : Nat → Byte} {m m' : List Host.Cell}

/-! ## The cells of a canonical list are the bytes it reads as -/

/-- A byte that is not as after a reset is listed. -/
theorem mem_of_read_ne {a : Nat} (h : read bg m a ≠ bg a) : (a, read bg m a) ∈ m := by
  induction m with
  | nil => exact absurd rfl h
  | cons c m ih =>
    obtain ⟨k, v⟩ := c
    by_cases hk : k = a
    · simp [read, hk]
    · simp only [read, if_neg hk] at h ⊢
      exact List.mem_cons_of_mem _ (ih h)

/-- No later cell of a rising list hides a listed byte. -/
theorem read_of_mem {a : Nat} {b : Byte} (hm : (m.map Prod.fst).Pairwise (· < ·)) (h : (a, b) ∈ m) :
    read bg m a = b := by
  induction m with
  | nil => cases h
  | cons c m ih =>
    obtain ⟨k, v⟩ := c
    rw [List.map_cons, List.pairwise_cons] at hm
    rcases List.mem_cons.mp h with heq | htail
    · cases heq; exact if_pos rfl
    · have hlt : k < a := hm.1 a (List.mem_map_of_mem htail)
      exact (if_neg hlt.ne).trans (ih hm.2 htail)

/-- A canonical list has a cell for each byte of memory that is not as after a reset, and no other. -/
theorem mem_iff_read (hm : wf bg m) {a : Nat} {b : Byte} :
    (a, b) ∈ m ↔ a < memSize ∧ read bg m a = b ∧ b ≠ bg a := by
  constructor
  · intro h
    obtain ⟨ha, hb⟩ := hm.2 _ h
    exact ⟨ha, read_of_mem hm.1 h, hb⟩
  · rintro ⟨-, rfl, hb⟩
    exact mem_of_read_ne hb

/-- Canonical lists that read alike have the same cells, in the same rising order. -/
theorem eq_of_read_eq (hm : wf bg m) (hm' : wf bg m')
    (h : ∀ a < memSize, read bg m a = read bg m' a) : m = m' := by
  refine List.Pairwise.eq_of_mem_iff (r := InvImage (· < ·) Prod.fst)
    ((List.pairwise_map (f := Prod.fst)).mp hm.1) ((List.pairwise_map (f := Prod.fst)).mp hm'.1)
    fun ⟨a, b⟩ => ?_
  rw [mem_iff_read hm, mem_iff_read hm']
  exact and_congr_right fun ha => by rw [h a ha]

end Sys2Proof.Machine.Memory

namespace Sys2Proof.Machine

variable {i : Instr} {s t : State}

/-! ## Who can change memory, the display and the stack -/

theorem mem_mem_partsOf : .mem ∈ partsOf i ↔ (∃ x, i = .ldB x) ∨ ∃ x, i = .ldMemVx x := by
  cases i <;> simp [partsOf]

theorem disp_mem_partsOf : .disp ∈ partsOf i ↔ i = .cls ∨ ∃ x y n, i = .drw x y n := by
  cases i <;> simp [partsOf]

/-- A handler leaves every byte of memory alone unless it is one of the two stores (R59). -/
theorem exec_readByte (h : exec i s = .next t) (hB : ∀ x, i ≠ .ldB x) (hM : ∀ x, i ≠ .ldMemVx x) :
    ∀ a, t.readByte a = s.readByte a :=
  exec_onlyChanges h .mem fun hm => (mem_mem_partsOf.mp hm).elim
    (fun ⟨x, hx⟩ => hB x hx) (fun ⟨x, hx⟩ => hM x hx)

/-- A handler leaves every cell alone unless it clears or draws (spec/10_state.md R28). -/
theorem exec_lit (h : exec i s = .next t) (hC : i ≠ .cls) (hD : ∀ x y n, i ≠ .drw x y n) :
    ∀ p, t.disp.lit p = s.disp.lit p :=
  exec_onlyChanges h .disp fun hm => (disp_mem_partsOf.mp hm).elim
    hC (fun ⟨x, y, n, hx⟩ => hD x y n hx)

/-- A handler leaves the stack alone unless it calls or returns (spec/10_state.md R26). -/
theorem exec_stk (h : exec i s = .next t) (hC : ∀ nnn, i ≠ .call nnn) (hR : i ≠ .ret) :
    t.stk = s.stk :=
  exec_onlyChanges h .stk fun hm => (stk_mem_partsOf.mp hm).elim hR (fun ⟨nnn, hx⟩ => hC nnn hx)

/-! ## The bytes after a reset -/

theorem maskAddr_ofNat {a : Nat} (h : a < 4096) : maskAddr (BitVec.ofNat 16 a) = a := by
  rw [State.maskAddr_toNat, BitVec.toNat_ofNat]
  omega

/-- The reset contents at the address of byte `k` of glyph `d` (R57). -/
theorem resetByte_glyph (c : Config) {d k : Nat} (hd : d < 16) (hk : k < 5) :
    resetByte c (0x0050 + 5 * d + k) = c.glyphTable[d][k] := by
  have hrow : (0x0050 + 5 * d + k - 0x0050) / 5 = d := by omega
  have hcol : (0x0050 + 5 * d + k - 0x0050) % 5 = k := by omega
  rw [resetByte, dif_pos (by omega)]
  simp only [hrow, hcol]

/-- The reset contents outside the glyph table (R57). -/
theorem resetByte_zero (c : Config) {a : Nat} (h : a < 0x0050 ∨ 0x00A0 ≤ a) : resetByte c a = 0 :=
  dif_neg (by omega)

/-- Memory after a reset with an image that fits: the image written over the reset contents
(spec/70_reset_and_hazards.md R210). -/
theorem readByte_resetWithImage (s : State) {image : List Byte} (h : image.length ≤ 3584) (a : Word) :
    (s.resetWithImage image).readByte a =
      ((State.resetWith s.cfg).writeBytes (BitVec.ofNat 16 0x0200) image).readByte a := by
  rw [s.resetWithImage_fits h, State.readByte, State.readByte, State.writeBytes_cfg]
  rfl

/-- Byte `j` of the image is at `0x0200 + j`. -/
theorem readByte_resetWithImage_image (s : State) {image : List Byte} (h : image.length ≤ 3584)
    {j : Nat} (hj : j < image.length) :
    (s.resetWithImage image).readByte (BitVec.ofNat 16 (0x0200 + j)) = image[j] := by
  rw [readByte_resetWithImage s h, BitVec.ofNat_add]
  exact State.readByte_writeBytes_inside _ _ image (by omega) j hj

/-- A byte below or above the image keeps its reset contents. -/
theorem readByte_resetWithImage_outside (s : State) {image : List Byte} (h : image.length ≤ 3584)
    {a : Nat} (ha : a < 4096) (hout : a < 0x0200 ∨ 0x0200 + image.length ≤ a) :
    (s.resetWithImage image).readByte (BitVec.ofNat 16 a) = resetByte s.cfg a := by
  rw [readByte_resetWithImage s h, State.readByte_writeBytes_outside]
  · exact congrArg (resetByte s.cfg) (maskAddr_ofNat ha)
  · intro k hk
    rw [maskAddr_ofNat ha, State.maskAddr_add, BitVec.toNat_ofNat]
    omega

/-! ## A store and the fetch after it -/

/-- A store never faults: its step writes the bytes and ticks. -/
theorem step_of_store {bs : List Byte} (he : s.err = .none)
    (h : exec (decode s.cfg s.fetchWord) s.advance = .next (s.advance.writeBytes s.idx bs)) :
    step s = .next (s.advance.writeBytes s.idx bs).tick := by
  rw [step_of_exec he h, State.endStep_ok (by simpa using he)]

/-- The byte of memory that is byte `j` of the word fetched after a store. -/
theorem fetchedByte_after_store (s : State) (bs : List Byte) (j : Fin 2) :
    (s.advance.writeBytes s.idx bs).tick.fetchedByte j =
      (s.advance.writeBytes s.idx bs).readByte (s.pc + 2#16 + BitVec.ofNat 16 j.val) := by
  rw [fetchedByte_eq, State.readByte_tick, State.tick_pc, State.writeBytes_pc, State.advance_pc]

theorem maskAddr_next_fetch (s : State) (j : Fin 2) :
    maskAddr (s.pc + 2#16 + BitVec.ofNat 16 j.val) = (s.pc.toNat + 2 + j.val) % 4096 := by
  rw [State.maskAddr_add, pc_add_toNat s.pc 2]
  omega

/-- Where the `n`-th stored byte and byte `j` of the next word meet, the store is what is fetched (R63). -/
theorem fetchedByte_after_store_covered (s : State) {bs : List Byte} (hl : bs.length ≤ 4096)
    {j : Fin 2} {n : Nat} (hn : n < bs.length)
    (h : (s.idx.toNat + n) % 4096 = (s.pc.toNat + 2 + j.val) % 4096) :
    (s.advance.writeBytes s.idx bs).tick.fetchedByte j = bs[n] := by
  have haddr : maskAddr (s.pc + 2#16 + BitVec.ofNat 16 j.val) =
      maskAddr (s.idx + BitVec.ofNat 16 n) := by
    rw [maskAddr_next_fetch, State.maskAddr_add, h]
  rw [fetchedByte_after_store, State.readByte_congr _ haddr]
  exact s.advance.readByte_writeBytes_inside s.idx bs hl n hn

/-- Where no stored byte meets byte `j` of the next word, memory is as it was. -/
theorem fetchedByte_after_store_uncovered (s : State) {bs : List Byte} {j : Fin 2}
    (h : ∀ n < bs.length, (s.idx.toNat + n) % 4096 ≠ (s.pc.toNat + 2 + j.val) % 4096) :
    (s.advance.writeBytes s.idx bs).tick.fetchedByte j =
      s.readByte (s.pc + 2#16 + BitVec.ofNat 16 j.val) := by
  rw [fetchedByte_after_store, State.readByte_writeBytes_outside, State.readByte_advance]
  intro n hn
  rw [maskAddr_next_fetch, State.maskAddr_add]
  exact (h n hn).symm

@[simp] theorem bcdDigits_length (b : Byte) : (bcdDigits b).length = 3 := rfl

/-- The `n`-th digit stored, the hundreds first (spec/41_load.md R119). -/
theorem bcdDigits_getElem_toNat (b : Byte) {n : Nat} (hn : n < (bcdDigits b).length) :
    (bcdDigits b)[n].toNat = b.toNat / 10 ^ (2 - n) % 10 := by
  have hb := b.isLt
  rw [bcdDigits_length] at hn
  calc (bcdDigits b)[n].toNat
      = ((bcdDigits b).map (·.toNat))[n]'(by simpa using hn) := (List.getElem_map _).symm
    _ = [b.toNat / 100, b.toNat / 10 % 10, b.toNat % 10][n] := by simp only [bcdDigits_toNat]
    _ = b.toNat / 10 ^ (2 - n) % 10 := by
      match n, hn with
      | 0, _ => show b.toNat / 100 = b.toNat / 100 % 10; omega
      | 1, _ => rfl
      | 2, _ => show b.toNat % 10 = b.toNat / 1 % 10; rw [Nat.div_one]

end Sys2Proof.Machine

namespace Sys2Proof.Proofs

open Sys2Proof.Machine

/-- Settles O15, from the table of what each handler can change. -/
theorem memoryDisplayAndStackHaveFixedWriters : Obligations.MemoryDisplayAndStackHaveFixedWriters :=
  fun _ _ _ h => ⟨exec_readByte h, exec_lit h, exec_stk h⟩

/-- Settles O23: the cells of a canonical list are the bytes that are not as after a reset, in rising
order. -/
theorem canonicalMemoryIsDeterminedByItsBytes : Obligations.CanonicalMemoryIsDeterminedByItsBytes :=
  fun _ _ _ hm hm' h => Memory.eq_of_read_eq hm hm' h

/-- Settles O24: the image is the only thing written over the reset contents, and it lies above the glyph
table. -/
theorem resetLaysOutMemory : Obligations.ResetLaysOutMemory := by
  intro s image h
  refine ⟨fun d hd k hk => ?_, fun j hj => readByte_resetWithImage_image s h hj,
    fun a ha hzero => ?_, ?_, fun a a' b => ?_⟩
  · rw [readByte_resetWithImage_outside s h (by omega) (by omega), resetByte_glyph s.cfg hd hk]
  · rw [readByte_resetWithImage_outside s h ha (by omega), resetByte_zero s.cfg (by omega)]
  · rw [s.resetWithImage_fits h]; rfl
  · rw [State.readByte_writeByte, State.maskAddr_toNat, State.maskAddr_toNat]

/-- Settles O40: each of the two stores is a sequence of byte writes, which the next fetch reads where
they meet and reads past where they do not. -/
theorem storedRegistersAreFetchedNext : Obligations.StoredRegistersAreFetchedNext := by
  intro s x he
  refine ⟨fun hdec => ?_, fun hdec => ?_⟩
  · have hlen := s.regBlock_length x
    refine ⟨_, step_of_store he (bs := s.regBlock x) (by rw [hdec]; rfl), fun j => ⟨?_, ?_⟩⟩
    · intro n hn hmeet
      have hn' : n.val < (s.regBlock x).length := by rw [hlen]; exact Nat.lt_succ_of_le hn
      rw [fetchedByte_after_store_covered s (by omega) hn' hmeet, State.regBlock_getElem]
    · intro hapart
      refine fetchedByte_after_store_uncovered s fun n hn => ?_
      rw [hlen] at hn
      exact hapart ⟨n, by omega⟩ (Nat.le_of_lt_succ hn)
  · refine ⟨_, step_of_store he (bs := bcdDigits (s.reg x)) (by rw [hdec]; rfl), fun j => ⟨?_, ?_⟩⟩
    · intro n hn hmeet
      rw [fetchedByte_after_store_covered s (by rw [bcdDigits_length]; omega) hn hmeet]
      exact bcdDigits_getElem_toNat _ hn
    · exact fun hapart => fetchedByte_after_store_uncovered s hapart

end Sys2Proof.Proofs
end

section
/-! PROOFS. The decoder as a relation between a word and its instruction (spec/30_encoding.md R75, R77):
which fields a word has when it decodes to an instruction, read in both directions. -/

namespace Sys2Proof

variable {c : Config} {w : Word} {i : Instr}

/-! ## The relation -/

/-- The secondary field of group 0x0 or 0xE selects the row whose low byte is `b`: by the whole byte, or by
its low nibble alone (R74). -/
def SecondaryField.Selects (f : SecondaryField) (w : Word) (b : Byte) : Prop :=
  match f with
  | .kk => fieldKK w = b
  | .n => fieldN w = b.extractLsb' 0 4

/-- The low nibble of a word of group 0x5 or 0x9 lets it be a register-compare skip (R74). -/
def LowNibblePolicy.Allows (p : LowNibblePolicy) (w : Word) : Prop :=
  p = .mustBeZero → fieldN w = 0x0#4

/-- The fields of a word that is to decode to an instruction (R75, R77). -/
def DecodedFrom (c : Config) (w : Word) : Instr → Prop
  | .cls => fieldT w = 0x0 ∧ c.group0Field.Selects w 0xE0
  | .ret => fieldT w = 0x0 ∧ c.group0Field.Selects w 0xEE
  | .jp nnn => fieldT w = 0x1 ∧ nnn = fieldNNN w
  | .call nnn => fieldT w = 0x2 ∧ nnn = fieldNNN w
  | .seImm x kk => fieldT w = 0x3 ∧ x = fieldX w ∧ kk = fieldKK w
  | .sneImm x kk => fieldT w = 0x4 ∧ x = fieldX w ∧ kk = fieldKK w
  | .seReg x y => fieldT w = 0x5 ∧ c.regSkipLowNibble.Allows w ∧ x = fieldX w ∧ y = fieldY w
  | .ldImm x kk => fieldT w = 0x6 ∧ x = fieldX w ∧ kk = fieldKK w
  | .addImm x kk => fieldT w = 0x7 ∧ x = fieldX w ∧ kk = fieldKK w
  | .ldReg x y => fieldT w = 0x8 ∧ fieldN w = 0x0 ∧ x = fieldX w ∧ y = fieldY w
  | .orReg x y => fieldT w = 0x8 ∧ fieldN w = 0x1 ∧ x = fieldX w ∧ y = fieldY w
  | .andReg x y => fieldT w = 0x8 ∧ fieldN w = 0x2 ∧ x = fieldX w ∧ y = fieldY w
  | .xorReg x y => fieldT w = 0x8 ∧ fieldN w = 0x3 ∧ x = fieldX w ∧ y = fieldY w
  | .addReg x y => fieldT w = 0x8 ∧ fieldN w = 0x4 ∧ x = fieldX w ∧ y = fieldY w
  | .subReg x y => fieldT w = 0x8 ∧ fieldN w = 0x5 ∧ x = fieldX w ∧ y = fieldY w
  | .shr x y => fieldT w = 0x8 ∧ fieldN w = 0x6 ∧ x = fieldX w ∧ y = fieldY w
  | .subnReg x y => fieldT w = 0x8 ∧ fieldN w = 0x7 ∧ x = fieldX w ∧ y = fieldY w
  | .shl x y => fieldT w = 0x8 ∧ fieldN w = 0xE ∧ x = fieldX w ∧ y = fieldY w
  | .sneReg x y => fieldT w = 0x9 ∧ c.regSkipLowNibble.Allows w ∧ x = fieldX w ∧ y = fieldY w
  | .ldI nnn => fieldT w = 0xA ∧ nnn = fieldNNN w
  | .jpV0 nnn => fieldT w = 0xB ∧ nnn = fieldNNN w
  | .rnd x kk => fieldT w = 0xC ∧ x = fieldX w ∧ kk = fieldKK w
  | .drw x y n => fieldT w = 0xD ∧ x = fieldX w ∧ y = fieldY w ∧ n = fieldN w
  | .skp x => fieldT w = 0xE ∧ c.groupEField.Selects w 0x9E ∧ x = fieldX w
  | .sknp x => fieldT w = 0xE ∧ c.groupEField.Selects w 0xA1 ∧ x = fieldX w
  | .ldVxDT x => fieldT w = 0xF ∧ fieldKK w = 0x07 ∧ x = fieldX w
  | .ldVxK x => fieldT w = 0xF ∧ fieldKK w = 0x0A ∧ x = fieldX w
  | .ldDTVx x => fieldT w = 0xF ∧ fieldKK w = 0x15 ∧ x = fieldX w
  | .ldSTVx x => fieldT w = 0xF ∧ fieldKK w = 0x18 ∧ x = fieldX w
  | .addI x => fieldT w = 0xF ∧ fieldKK w = 0x1E ∧ x = fieldX w
  | .ldF x => fieldT w = 0xF ∧ fieldKK w = 0x29 ∧ x = fieldX w
  | .ldB x => fieldT w = 0xF ∧ fieldKK w = 0x33 ∧ x = fieldX w
  | .ldMemVx x => fieldT w = 0xF ∧ fieldKK w = 0x55 ∧ x = fieldX w
  | .ldVxMem x => fieldT w = 0xF ∧ fieldKK w = 0x65 ∧ x = fieldX w
  | .nop raw => raw = w ∧ isFallback c w = true

/-! ## What decode answers has those fields -/

theorem decodedFrom_decodeGroup0 (hT : fieldT w = 0x0#4) : DecodedFrom c w (decodeGroup0 c w) := by
  unfold decodeGroup0
  split <;> next hf =>
    split
    · next h => exact ⟨hT, by rw [hf]; exact BitVec.eq_of_toNat_eq h⟩
    · next h => exact ⟨hT, by rw [hf]; exact BitVec.eq_of_toNat_eq h⟩
    · next hcls hret => exact ⟨rfl, by simpa [isFallback, hT, hf] using And.intro hcls hret⟩

theorem decodedFrom_decodeGroupE (hT : fieldT w = 0xE#4) : DecodedFrom c w (decodeGroupE c w) := by
  unfold decodeGroupE
  split <;> next hf =>
    split
    · next h => exact ⟨hT, by rw [hf]; exact BitVec.eq_of_toNat_eq h, rfl⟩
    · next h => exact ⟨hT, by rw [hf]; exact BitVec.eq_of_toNat_eq h, rfl⟩
    · next hskp hsknp => exact ⟨rfl, by simpa [isFallback, hT, hf] using And.intro hskp hsknp⟩

/-- `i` is the register-compare skip of the word's group. -/
theorem decodedFrom_decodeRegSkip (hT : fieldT w = 0x5#4 ∨ fieldT w = 0x9#4)
    (hi : c.regSkipLowNibble.Allows w → DecodedFrom c w i) : DecodedFrom c w (decodeRegSkip c w i) := by
  unfold decodeRegSkip
  split
  · next hp => exact hi (by simp [LowNibblePolicy.Allows, hp])
  · next hp =>
    split
    · next hN => exact hi fun _ => hN
    · next hN => exact ⟨rfl, by rcases hT with hT | hT <;> simp [isFallback, hT, hp, hN]⟩

theorem decodedFrom_decodeGroup8 (hT : fieldT w = 0x8#4) : DecodedFrom c w (decodeGroup8 w) := by
  unfold decodeGroup8
  split
  case h_10 =>
    refine ⟨rfl, ?_⟩
    have hN := (fieldN w).isLt
    simp only [imp_false] at *
    simp [isFallback, hT]
    omega
  all_goals next h => exact ⟨hT, BitVec.eq_of_toNat_eq h, rfl, rfl⟩

theorem decodedFrom_decodeGroupF (hT : fieldT w = 0xF#4) : DecodedFrom c w (decodeGroupF w) := by
  unfold decodeGroupF
  split
  case h_10 => exact ⟨rfl, by simp_all [isFallback]⟩
  all_goals next h => exact ⟨hT, BitVec.eq_of_toNat_eq h, rfl⟩

/-- Every word has the fields of the instruction it decodes to. -/
theorem decodedFrom_decode (c : Config) (w : Word) : DecodedFrom c w (decode c w) := by
  unfold decode
  split
  case h_1 h => exact decodedFrom_decodeGroup0 (BitVec.eq_of_toNat_eq h)
  case h_6 h =>
    have hT : fieldT w = 0x5#4 := BitVec.eq_of_toNat_eq h
    exact decodedFrom_decodeRegSkip (.inl hT) fun hp => ⟨hT, hp, rfl, rfl⟩
  case h_9 h => exact decodedFrom_decodeGroup8 (BitVec.eq_of_toNat_eq h)
  case h_10 h =>
    have hT : fieldT w = 0x9#4 := BitVec.eq_of_toNat_eq h
    exact decodedFrom_decodeRegSkip (.inr hT) fun hp => ⟨hT, hp, rfl, rfl⟩
  case h_15 h => exact decodedFrom_decodeGroupE (BitVec.eq_of_toNat_eq h)
  case h_16 h => exact decodedFrom_decodeGroupF (BitVec.eq_of_toNat_eq h)
  case h_17 =>
    have hT := (fieldT w).isLt
    simp only [imp_false] at *
    omega
  case h_2 h | h_3 h | h_11 h | h_12 h => exact ⟨BitVec.eq_of_toNat_eq h, rfl⟩
  case h_4 h | h_5 h | h_7 h | h_8 h | h_13 h => exact ⟨BitVec.eq_of_toNat_eq h, rfl, rfl⟩
  case h_14 h => exact ⟨BitVec.eq_of_toNat_eq h, rfl, rfl, rfl⟩

/-! ## A word with those fields decodes to the instruction -/

theorem SecondaryField.selects_kk {b : Byte} : SecondaryField.kk.Selects w b ↔ fieldKK w = b := Iff.rfl

theorem SecondaryField.selects_n {b : Byte} :
    SecondaryField.n.Selects w b ↔ fieldN w = b.extractLsb' 0 4 := Iff.rfl

theorem decodeRegSkip_allowed (h : c.regSkipLowNibble.Allows w) : decodeRegSkip c w i = i := by
  unfold decodeRegSkip
  split
  · rfl
  · next hp => exact if_pos (h hp)

/-- A word with the fields of an instruction is no reserved word, unless the instruction is the fallback. -/
theorem DecodedFrom.not_isFallback (h : DecodedFrom c w i) (hi : ∀ raw, i ≠ .nop raw) :
    isFallback c w = false := by
  cases i
  case nop raw => exact absurd rfl (hi raw)
  case cls | ret =>
    obtain ⟨hT, hb⟩ := h
    cases hf : c.group0Field with
    | kk => rw [hf, SecondaryField.selects_kk] at hb; simp [isFallback, hT, hf, hb]
    | n => rw [hf, SecondaryField.selects_n] at hb; simp [isFallback, hT, hf, hb]
  case skp | sknp =>
    obtain ⟨hT, hb, -⟩ := h
    cases hf : c.groupEField with
    | kk => rw [hf, SecondaryField.selects_kk] at hb; simp [isFallback, hT, hf, hb]
    | n => rw [hf, SecondaryField.selects_n] at hb; simp [isFallback, hT, hf, hb]
  case seReg | sneReg =>
    obtain ⟨hT, hp, -⟩ := h
    simpa [isFallback, hT, LowNibblePolicy.Allows] using hp
  case jp | call | ldI | jpV0 | seImm | sneImm | ldImm | addImm | rnd | drw =>
    obtain ⟨hT, -⟩ := h
    simp [isFallback, hT]
  all_goals
    obtain ⟨hT, hb, -⟩ := h
    simp [isFallback, hT, hb]

/-- A word with the fields of an instruction decodes to it. -/
theorem DecodedFrom.decode_eq (h : DecodedFrom c w i) : decode c w = i := by
  cases i
  case nop raw =>
    obtain ⟨rfl, hw⟩ := h
    have hd := decodedFrom_decode c raw
    generalize decode c raw = j at hd ⊢
    by_contra hne
    cases j
    case nop raw' => exact hne (by rw [hd.1])
    all_goals simp [hd.not_isFallback (by simp)] at hw
  case cls | ret =>
    obtain ⟨hT, hb⟩ := h
    cases hf : c.group0Field with
    | kk => rw [hf, SecondaryField.selects_kk] at hb; simp [decode, decodeGroup0, hT, hf, hb]
    | n => rw [hf, SecondaryField.selects_n] at hb; simp [decode, decodeGroup0, hT, hf, hb]
  case skp | sknp =>
    obtain ⟨hT, hb, rfl⟩ := h
    cases hf : c.groupEField with
    | kk => rw [hf, SecondaryField.selects_kk] at hb; simp [decode, decodeGroupE, hT, hf, hb]
    | n => rw [hf, SecondaryField.selects_n] at hb; simp [decode, decodeGroupE, hT, hf, hb]
  case seReg | sneReg =>
    obtain ⟨hT, hp, rfl, rfl⟩ := h
    simp [decode, hT, decodeRegSkip_allowed hp]
  case jp | call | ldI | jpV0 =>
    obtain ⟨hT, rfl⟩ := h
    simp [decode, hT]
  case seImm | sneImm | ldImm | addImm | rnd =>
    obtain ⟨hT, rfl, rfl⟩ := h
    simp [decode, hT]
  case drw =>
    obtain ⟨hT, rfl, rfl, rfl⟩ := h
    simp [decode, hT]
  case ldReg | orReg | andReg | xorReg | addReg | subReg | shr | subnReg | shl =>
    obtain ⟨hT, hN, rfl, rfl⟩ := h
    simp [decode, hT, decodeGroup8, hN]
  all_goals
    obtain ⟨hT, hK, rfl⟩ := h
    simp [decode, hT, decodeGroupF, hK]

/-- The relation is the decoder's graph. -/
theorem decode_eq_iff : decode c w = i ↔ DecodedFrom c w i :=
  ⟨fun h => h ▸ decodedFrom_decode c w, DecodedFrom.decode_eq⟩

/-! ## The word of an instruction -/

@[simp] theorem bitsOfReg_fieldX (w : Word) : bitsOfReg (fieldX w) = fieldXBits w := rfl

@[simp] theorem bitsOfReg_fieldY (w : Word) : bitsOfReg (fieldY w) = fieldYBits w := rfl

/-- The word of a well-formed instruction has the instruction's fields, under every decoder parameter. -/
theorem decodedFrom_encode (h : i.wf c = true) : DecodedFrom c (encode i) i := by
  cases i
  case nop raw => exact ⟨rfl, h⟩
  case cls | ret => exact ⟨by decide, by cases c.group0Field <;> exact rfl⟩
  case skp | sknp =>
    refine ⟨by simp [encode], ?_, by simp [encode]⟩
    cases c.groupEField <;> simp [SecondaryField.Selects, encode]
  case seReg | sneReg => simp [DecodedFrom, encode, LowNibblePolicy.Allows]
  all_goals simp [DecodedFrom, encode]

/-- No nibble of the word is ignored by the decoder: the word is not in group 0x0, 0x5 or 0x9, nor in group
0xE when the low nibble is what it tests (R74). -/
def AllNibblesRead (c : Config) (w : Word) : Prop :=
  fieldT w ≠ 0x0#4 ∧ fieldT w ≠ 0x5#4 ∧ fieldT w ≠ 0x9#4 ∧ (fieldT w = 0xE#4 → c.groupEField = .kk)

theorem encode_of_decodedFrom (h : DecodedFrom c w i) (hw : AllNibblesRead c w) : encode i = w := by
  obtain ⟨h0, h5, h9, hE⟩ := hw
  cases i
  case nop => exact h.1
  case cls | ret => exact absurd h.1 h0
  case seReg => exact absurd h.1 h5
  case sneReg => exact absurd h.1 h9
  case jp | call | ldI | jpV0 =>
    obtain ⟨hT, rfl⟩ := h
    rw [encode, ← hT, wordTNNN_fields]
  case seImm | sneImm | ldImm | addImm | rnd =>
    obtain ⟨hT, rfl, rfl⟩ := h
    rw [encode, ← hT, bitsOfReg_fieldX, wordTXKK_fields]
  case drw =>
    obtain ⟨hT, rfl, rfl, rfl⟩ := h
    rw [encode, ← hT, bitsOfReg_fieldX, bitsOfReg_fieldY, wordTXYN_fields]
  case skp | sknp =>
    obtain ⟨hT, hb, rfl⟩ := h
    rw [hE hT, SecondaryField.selects_kk] at hb
    rw [encode, ← hT, ← hb, bitsOfReg_fieldX, wordTXKK_fields]
  case ldReg | orReg | andReg | xorReg | addReg | subReg | shr | subnReg | shl =>
    obtain ⟨hT, hN, rfl, rfl⟩ := h
    rw [encode, ← hT, ← hN, bitsOfReg_fieldX, bitsOfReg_fieldY, wordTXYN_fields]
  all_goals
    obtain ⟨hT, hK, rfl⟩ := h
    rw [encode, ← hT, ← hK, bitsOfReg_fieldX, wordTXKK_fields]

/-! ## The fields by mask and shift (R71) -/

/-- A field is read off the word that holds it in its low bits and zeros above. -/
theorem toNat_eq_of_eq_setWidth {n : Nat} {b : BitVec n} {v : Word} (hn : n ≤ 16)
    (h : v = b.setWidth 16) : b.toNat = v.toNat := by
  rw [h, BitVec.toNat_setWidth_of_le hn]

theorem fieldX_val (w : Word) : (fieldX w).val = ((w &&& 0x0F00#16) >>> 8).toNat :=
  toNat_eq_of_eq_setWidth (b := fieldXBits w) (by decide) (by
    ext i hi; interval_cases i <;> simp [fieldXBits])

theorem fieldY_val (w : Word) : (fieldY w).val = ((w &&& 0x00F0#16) >>> 4).toNat :=
  toNat_eq_of_eq_setWidth (b := fieldYBits w) (by decide) (by
    ext i hi; interval_cases i <;> simp [fieldYBits])

theorem fieldN_toNat (w : Word) : (fieldN w).toNat = (w &&& 0x000F#16).toNat :=
  toNat_eq_of_eq_setWidth (b := fieldN w) (by decide) (by
    ext i hi; interval_cases i <;> simp [fieldN])

theorem fieldKK_toNat (w : Word) : (fieldKK w).toNat = (w &&& 0x00FF#16).toNat :=
  toNat_eq_of_eq_setWidth (b := fieldKK w) (by decide) (by
    ext i hi; interval_cases i <;> simp [fieldKK])

theorem fieldNNN_toNat (w : Word) : (fieldNNN w).toNat = (w &&& 0x0FFF#16).toNat :=
  toNat_eq_of_eq_setWidth (b := fieldNNN w) (by decide) (by
    ext i hi; interval_cases i <;> simp [fieldNNN])

end Sys2Proof

namespace Sys2Proof.Proofs

/-- Settles O1: the word of a well-formed instruction has the instruction's fields, and `decode` reads no
more. -/
theorem encodeThenDecodeGivesTheInstruction : Obligations.EncodeThenDecodeGivesTheInstruction := by
  intro c i rest h
  have hd : decode c (encode i) = i := decode_eq_iff.mpr (decodedFrom_encode h)
  exact ⟨hd, by simp [encodeBytes, decodeBytes, hd]⟩

/-- Settles O2: in these groups the fields of the decoded instruction make up the whole word. -/
theorem decodeThenEncodeGivesTheWord : Obligations.DecodeThenEncodeGivesTheWord :=
  fun c w h0 h5 h9 hE => encode_of_decodedFrom (decodedFrom_decode c w) ⟨h0, h5, h9, hE⟩

/-- Settles O4: the fallback's line of the decoder's graph. -/
theorem fallbackIsExactlyTheReservedWords : Obligations.FallbackIsExactlyTheReservedWords :=
  fun _ _ _ => decode_eq_iff

/-- Settles O5: the payload fields by the decoder's graph, the errors by what a handler can raise. -/
theorem decodedFieldsAreTheFixedFormulas : Obligations.DecodedFieldsAreTheFixedFormulas := by
  refine ⟨fun c w => ?_, fun i s => ⟨Machine.exec_not_fault i s, fun t hs h => ?_⟩⟩
  · have h := decodedFrom_decode c w
    generalize decode c w = i at h ⊢
    cases i
    case nop => exact h.1
    case cls | ret => trivial
    case jp | call | ldI | jpV0 =>
      obtain ⟨-, rfl⟩ := h
      exact fieldNNN_toNat w
    case seImm | sneImm | ldImm | addImm | rnd =>
      obtain ⟨-, rfl, rfl⟩ := h
      exact ⟨fieldX_val w, fieldKK_toNat w⟩
    case drw =>
      obtain ⟨-, rfl, rfl, rfl⟩ := h
      exact ⟨fieldX_val w, fieldY_val w, fieldN_toNat w⟩
    case skp | sknp | ldVxDT | ldVxK | ldDTVx | ldSTVx | addI | ldF | ldB | ldMemVx | ldVxMem =>
      obtain ⟨-, -, rfl⟩ := h
      exact fieldX_val w
    all_goals
      obtain ⟨-, -, rfl, rfl⟩ := h
      exact ⟨fieldX_val w, fieldY_val w⟩
  · rcases Machine.exec_err h with he | he | he <;> rw [he]
    · exact hs
    all_goals decide

/-- Settles O6, by evaluation. -/
theorem sampleWordsDecode : Obligations.SampleWordsDecode := by
  unfold Obligations.SampleWordsDecode
  decide

end Sys2Proof.Proofs
end

section
/-! PROOFS. The decoder and the opcode map (spec/30_encoding.md R76, R77): the rows are apart, a word meets
the row of the instruction it decodes to, and a reserved word meets none. -/

namespace Sys2Proof

variable {c : Config} {w : Word}

/-! ## A word meets the row of its instruction -/

/-- The word meets the mask and the pattern of the row with the instruction's number; the fallback, row 35,
has none. -/
def MeetsOwnRow (w : Word) (i : Instr) : Prop :=
  match opcodeMap.find? (fun r => r.row == i.row) with
  | some r => r.selects w = true
  | none => i = .nop w

open Laws.EncodingRow in
/-- A word meets the row of the instruction it decodes to. -/
theorem meetsOwnRow_decode (w : Word) : MeetsOwnRow w (decode Config.default w) := by
  have h := decodedFrom_decode Config.default w
  generalize decode Config.default w = i at h ⊢
  cases i
  case nop => exact congrArg Instr.nop h.1
  case cls | ret =>
    obtain ⟨hT, hK : fieldKK w = _⟩ := h
    exact selects_TKK (by rw [hT, hK]; rfl)
  case skp | sknp | ldVxDT | ldVxK | ldDTVx | ldSTVx | addI | ldF | ldB | ldMemVx | ldVxMem =>
    obtain ⟨hT, hK : fieldKK w = _, -⟩ := h
    exact selects_TKK (by rw [hT, hK]; rfl)
  case ldReg | orReg | andReg | xorReg | addReg | subReg | shr | subnReg | shl =>
    obtain ⟨hT, hN, -⟩ := h
    exact selects_TN (by rw [hT, hN]; rfl)
  all_goals
    obtain ⟨hT, -⟩ := h
    exact selects_T (by rw [hT]; rfl)

/-- Every word decodes to the fallback or meets a row with the number of what it decodes to. -/
theorem decode_nop_or_selects (w : Word) :
    decode Config.default w = .nop w ∨
      ∃ r ∈ opcodeMap, r.row = (decode Config.default w).row ∧ r.selects w = true := by
  have h := meetsOwnRow_decode w
  unfold MeetsOwnRow at h
  split at h
  · next r hr => exact .inr ⟨r, List.mem_of_find?_eq_some hr, by simpa using List.find?_some hr, h⟩
  · exact .inl h

theorem selects_iff {r : OpcodeRow} : r.selects w = true ↔ w &&& r.mask = r.pattern := by
  simp [OpcodeRow.selects]

/-- Two rows that differ ask for different values of a bit that both masks cover. -/
theorem opcodeMap_apart : ∀ r ∈ opcodeMap, ∀ r' ∈ opcodeMap,
    r.pattern &&& r'.mask = r'.pattern &&& r.mask → r = r' := by decide

/-- No word meets two rows. -/
theorem eq_of_selects {r r' : OpcodeRow} (hr : r ∈ opcodeMap) (hr' : r' ∈ opcodeMap)
    (h : r.selects w = true) (h' : r'.selects w = true) : r = r' := by
  rw [selects_iff] at h h'
  refine opcodeMap_apart r hr r' hr' ?_
  rw [← h, ← h', BitVec.and_assoc, BitVec.and_comm r.mask, BitVec.and_assoc]

/-- The masks of the map: the top nibble, in a group with a secondary field that field too. -/
theorem opcodeMap_masks : ∀ r ∈ opcodeMap,
    (r.mask = 0xF000#16 ∧ fieldT r.pattern ∉ [0x0#4, 0x8#4, 0xE#4, 0xF#4]) ∨
    (r.mask = 0xF00F#16 ∧ fieldT r.pattern = 0x8#4) ∨ r.mask = 0xF0FF#16 := by decide

theorem opcodeMap_pattern_not_isFallback :
    ∀ r ∈ opcodeMap, isFallback Config.default r.pattern = false := by decide

/-- The low nibble is that of the low byte. -/
theorem fieldN_eq_extract (w : Word) : fieldN w = (fieldKK w).extractLsb' 0 4 := by
  rw [← wordTXKK_fields w, fieldN_wordTXKK, fieldKK_wordTXKK]

/-- In a group without a secondary field no word is reserved. -/
theorem not_isFallback_of_fieldT (h : fieldT w ∉ [0x0#4, 0x8#4, 0xE#4, 0xF#4]) :
    isFallback Config.default w = false := by
  simp only [List.mem_cons, List.not_mem_nil, or_false, not_or] at h
  obtain ⟨h0, h8, hE, hF⟩ := h
  unfold isFallback
  split
  case h_1 h => exact absurd (BitVec.eq_of_toNat_eq h) h0
  case h_3 h => exact absurd (BitVec.eq_of_toNat_eq h) h8
  case h_5 h => exact absurd (BitVec.eq_of_toNat_eq h) hE
  case h_6 h => exact absurd (BitVec.eq_of_toNat_eq h) hF
  all_goals rfl

/-- Whether a word is reserved is a matter of its top nibble and its low byte. -/
theorem isFallback_congr {w' : Word} (hT : fieldT w = fieldT w') (hK : fieldKK w = fieldKK w') :
    isFallback c w = isFallback c w' := by
  have hN : fieldN w = fieldN w' := by rw [fieldN_eq_extract, fieldN_eq_extract, hK]
  simp only [isFallback, hT, hK, hN]

/-- A word that meets a row is no reserved word. -/
theorem not_isFallback_of_selects {r : OpcodeRow} (hr : r ∈ opcodeMap) (h : r.selects w = true) :
    isFallback Config.default w = false := by
  rw [selects_iff] at h
  have hp := opcodeMap_pattern_not_isFallback r hr
  rcases opcodeMap_masks r hr with ⟨hm, hT⟩ | ⟨hm, hT⟩ | hm <;> rw [hm] at h
  · rw [← h, and_maskT, fieldT_wordTXYN] at hT
    exact not_isFallback_of_fieldT hT
  · rw [← h, and_maskTN] at hT hp
    rw [fieldT_wordTXYN] at hT
    simpa [isFallback, hT] using hp
  · rw [← h, and_maskTKK] at hp
    rw [← hp]
    exact isFallback_congr (by simp) (by simp)

/-- A word that meets a row decodes to the row's instruction. -/
theorem row_decode_of_selects {r : OpcodeRow} (hr : r ∈ opcodeMap) (h : r.selects w = true) :
    (decode Config.default w).row = r.row := by
  rcases decode_nop_or_selects w with hnop | ⟨r', hr', hrow, h'⟩
  · have hw := (decode_eq_iff.mp hnop).2
    simp [not_isFallback_of_selects hr h] at hw
  · rw [← hrow, eq_of_selects hr hr' h h']

theorem opcodeMap_row_ne_fallback : ∀ r ∈ opcodeMap, r.row ≠ 35 := by decide

theorem opcodeMap_row_injective : ∀ r ∈ opcodeMap, ∀ r' ∈ opcodeMap,
    r.row = r'.row → r = r' := by decide

/-- A word that decodes to a row's instruction meets the row. -/
theorem selects_of_row_decode {r : OpcodeRow} (hr : r ∈ opcodeMap)
    (h : (decode Config.default w).row = r.row) : r.selects w = true := by
  rcases decode_nop_or_selects w with hnop | ⟨r', hr', hrow, h'⟩
  · rw [hnop] at h
    exact absurd h.symm (opcodeMap_row_ne_fallback r hr)
  · rwa [opcodeMap_row_injective r hr r' hr' (h.symm.trans hrow.symm)]

/-- The fallback is the complement of the map. -/
theorem decode_nop_iff_selects_none :
    (∀ r ∈ opcodeMap, r.selects w = false) ↔ decode Config.default w = .nop w := by
  refine ⟨fun h => ?_, fun h r hr => ?_⟩
  · rcases decode_nop_or_selects w with hnop | ⟨r, hr, -, hs⟩
    · exact hnop
    · simp [h r hr] at hs
  · rw [Bool.eq_false_iff]
    intro hs
    have hrow := row_decode_of_selects hr hs
    rw [h] at hrow
    exact opcodeMap_row_ne_fallback r hr hrow.symm

end Sys2Proof

namespace Sys2Proof.Proofs

/-- Settles O3: every word that is no fallback meets a row with its own number, no two rows meet, and no row
takes a reserved word. -/
theorem decodeFollowsTheOpcodeMap : Obligations.DecodeFollowsTheOpcodeMap :=
  ⟨fun _ hr _ => ⟨row_decode_of_selects hr, selects_of_row_decode hr⟩,
    fun _ => decode_nop_iff_selects_none, fun _ hr _ hr' _ => eq_of_selects hr hr'⟩

end Sys2Proof.Proofs
end

section
/-! PROOFS. Control flow (spec/40_control_flow.md R101 to R109): the call and the return, as handlers and as
steps, the jumps and the compare skips. -/

namespace Sys2Proof.Machine

variable {s t u : State}

/-! ## The words of a call and a return -/

theorem encodedAs_call : EncodedAs 0xF000#16 0x2000#16 (fun w => .call (fieldNNN w)) :=
  fun _ h => decode_eq_iff.mpr ⟨fieldT_of_mask h, rfl⟩

/-- The `x` nibble of `RET` is not tested (decision D4). -/
theorem encodedAs_ret : EncodedAs 0xF0FF#16 0x00EE#16 (fun _ => .ret) :=
  fun _ h => decode_eq_iff.mpr (fields_of_maskTKK h)

/-! ## The handlers of a call and a return -/

theorem onlyChanges_call {a b : Word} : OnlyChanges [.pc, .stk] s ((s.push a).setPc b) :=
  (onlyChanges_push.mono (by simp)).trans (onlyChanges_setPc.mono (by simp))

/-- A call with room on the stack pushes `pc` and jumps (R104). -/
theorem exec_call_pushes (nnn : Addr) (h : s.stk.length ≠ 32) :
    ∃ t, exec (.call nnn) s = .next t ∧ t.pc.toNat = nnn.toNat ∧ t.stk = s.pc :: s.stk ∧
      OnlyChanges [.pc, .stk] s t :=
  ⟨_, exec_call_room h, addrWord_toNat nnn, rfl, onlyChanges_call⟩

/-- A return with a pending call pops into `pc` (R101). -/
theorem exec_ret_pops {a : Word} {rest : List Word} (h : s.stk = a :: rest) :
    ∃ t, exec .ret s = .next t ∧ t.pc = a ∧ t.stk = rest ∧ OnlyChanges [.pc, .stk] s t :=
  ⟨_, exec_ret_cons h, rfl, rfl, onlyChanges_pop⟩

/-! ## The step around a handler that raises no error and leaves the timers alone -/

/-- The advance before the handler writes `pc` and the tick after it the timers (spec/10_state.md R38). -/
theorem onlyChanges_step_around {ps : List Part} (h : OnlyChanges ps s.advance u) :
    OnlyChanges (.pc :: .dt :: .st :: ps) s u.tick :=
  ((onlyChanges_advance.mono (by simp)).trans (h.mono (by intro p hp; simp [hp]))).trans
    (onlyChanges_tick.mono (by simp))

/-- A step whose handler changes `pc` and the stack alone completes, and the timers tick
(spec/10_state.md R41). -/
theorem step_of_stack_handler (he : s.err = .none)
    (hx : exec (decode s.cfg s.fetchWord) s.advance = .next u)
    (hu : OnlyChanges [.pc, .stk] s.advance u) :
    step s = .next u.tick ∧ OnlyChanges [.pc, .stk, .dt, .st] s u.tick ∧
      u.tick.dt.toNat = s.dt.toNat - 1 ∧ u.tick.st.toNat = s.st.toNat - 1 := by
  have herr : u.err = s.err := hu .err (by simp)
  have hdt : u.dt = s.dt := hu .dt (by simp)
  have hst : u.st = s.st := hu .st (by simp)
  refine ⟨?_, (onlyChanges_step_around hu).mono (by simp), ?_, ?_⟩
  · rw [step_of_exec he hx, State.endStep_ok (herr.trans he)]
  · rw [u.tick_dt, tickTimer_toNat, hdt]
  · rw [u.tick_st, tickTimer_toNat, hst]

/-- A call step jumps and leaves the address after the call, `pc0 + 2`, on top of the stack. -/
theorem step_call (nnn : Addr) (he : s.err = .none) (hroom : s.stk.length ≠ 32)
    (hdec : decode s.cfg s.fetchWord = .call nnn) :
    ∃ t, step s = .next t ∧ t.pc.toNat = nnn.toNat ∧ t.stk = (s.pc + 2#16) :: s.stk ∧
      OnlyChanges [.pc, .stk, .dt, .st] s t ∧
      t.dt.toNat = s.dt.toNat - 1 ∧ t.st.toNat = s.st.toNat - 1 := by
  obtain ⟨u, hu, hpc, hstk, hframe⟩ := exec_call_pushes (s := s.advance) nnn hroom
  obtain ⟨hstep, hrest⟩ := step_of_stack_handler he (hdec ▸ hu) hframe
  exact ⟨u.tick, hstep, hpc, hstk, hrest⟩

/-- A return step ends at the address on top of the stack. -/
theorem step_ret {a : Word} {rest : List Word} (he : s.err = .none) (hstk : s.stk = a :: rest)
    (hdec : decode s.cfg s.fetchWord = .ret) :
    ∃ t, step s = .next t ∧ t.pc = a ∧ t.stk = rest ∧ OnlyChanges [.pc, .stk, .dt, .st] s t ∧
      t.dt.toNat = s.dt.toNat - 1 ∧ t.st.toNat = s.st.toNat - 1 := by
  obtain ⟨u, hu, hpc, hrest, hframe⟩ := exec_ret_pops (s := s.advance) hstk
  obtain ⟨hstep, hticks⟩ := step_of_stack_handler he (hdec ▸ hu) hframe
  exact ⟨u.tick, hstep, hpc, hrest, hticks⟩

/-! ## The compare skips -/

/-- A skip adds 2 to `pc` when its condition holds, modulo 65536 (decision D8). -/
theorem skipIf_pc_toNat (s : State) (c : Bool) :
    (s.skipIf c).pc.toNat = (s.pc.toNat + if c then 2 else 0) % 65536 := by
  cases c
  · exact (Nat.mod_eq_of_lt s.pc.isLt).symm
  · exact pc_add_toNat s.pc 2

/-- The skip on equal bytes (R105, R107). -/
theorem skipIf_beq_pc_toNat (s : State) (a b : Byte) :
    (s.skipIf (a == b)).pc.toNat = (s.pc.toNat + if a.toNat = b.toNat then 2 else 0) % 65536 := by
  rw [skipIf_pc_toNat]
  simp [BitVec.toNat_inj]

/-- The skip on bytes that differ (R106, R108). -/
theorem skipIf_bne_pc_toNat (s : State) (a b : Byte) :
    (s.skipIf (a != b)).pc.toNat = (s.pc.toNat + if a.toNat = b.toNat then 0 else 2) % 65536 := by
  rw [skipIf_pc_toNat]
  simp [BitVec.toNat_inj]

end Sys2Proof.Machine

namespace Sys2Proof.Proofs

open Sys2Proof.Machine

/-- Settles O29: the return finds on its stack what the call step left there. -/
theorem callThenReturnComesBack : Obligations.CallThenReturnComesBack := by
  refine ⟨fun nnn s hroom => ?_, fun a rest s => exec_ret_pops, fun s r nnn he hroom hdec => ?_,
    fun s t nnn _ hfull h => ?_, fun i s t hC hR h => exec_stk h hC hR⟩
  · obtain ⟨t, ht, -, hstk, hframe⟩ := exec_call_pushes nnn hroom
    exact ⟨t, ht, hstk, hframe⟩
  · obtain ⟨t, ht, hpc, hstk, hframe, hdt, hst⟩ := step_call nnn he hroom hdec
    exact ⟨t, ht, hpc, hframe, hdt, hst, fun hre hrstk hret => step_ret hre (hrstk.trans hstk) hret⟩
  · rw [exec_call_full hfull] at h
    cases h; rfl

/-- Settles O27, by whether the stack has room. -/
theorem callPushesAndJumps : Obligations.CallPushesAndJumps :=
  ⟨encodedAs_call, fun nnn _ => ⟨exec_call_pushes nnn,
    fun hfull => ⟨_, exec_call_full hfull, rfl, onlyChanges_raise⟩⟩⟩

/-- Settles O28, by whether a call is pending. -/
theorem returnPopsIntoPc : Obligations.ReturnPopsIntoPc :=
  ⟨encodedAs_ret, fun _ => ⟨fun _ _ => exec_ret_pops,
    fun hempty => ⟨_, exec_ret_nil hempty, rfl, onlyChanges_raise⟩⟩⟩

/-- Settles O31: each handler is a skip on the comparison of two bytes. -/
theorem compareSkipsAddTwoOnTheirCondition : Obligations.CompareSkipsAddTwoOnTheirCondition :=
  ⟨fun x kk s => ⟨⟨_, rfl, onlyChanges_skipIf, skipIf_beq_pc_toNat s (s.reg x) kk⟩,
      ⟨_, rfl, onlyChanges_skipIf, skipIf_bne_pc_toNat s (s.reg x) kk⟩⟩,
    fun x y s => ⟨⟨_, rfl, onlyChanges_skipIf, skipIf_beq_pc_toNat s (s.reg x) (s.reg y)⟩,
      ⟨_, rfl, onlyChanges_skipIf, skipIf_bne_pc_toNat s (s.reg x) (s.reg y)⟩⟩⟩

/-- Settles O30: each handler sets `pc` to a sum that does not wrap. -/
theorem jumpsSetPcAlone : Obligations.JumpsSetPcAlone :=
  ⟨fun nnn _ => ⟨_, rfl, addrWord_toNat nnn, onlyChanges_setPc⟩,
    fun nnn s => ⟨_, rfl, addrWord_add_byteWord_toNat nnn (s.reg v0), onlyChanges_setPc⟩⟩

end Sys2Proof.Proofs
end

section
/-! PROOFS. The load family (spec/41_load.md R110 to R121): what each handler writes, with the frame of the
shared operation it is made of. -/

namespace Sys2Proof.Machine

variable {s : State}

/-! ## Writes of one register, of `I` and of one timer -/

/-- The words of `LD Vx, kk` (R110). -/
theorem encodedAs_ldImm :
    EncodedAs 0xF000#16 0x6000#16 (fun w => .ldImm (fieldX w) (fieldKK w)) :=
  fun _ h => decode_eq_iff.mpr ⟨fieldT_of_mask h, rfl, rfl⟩

/-- A handler that writes one register leaves the others and every other piece of state alone. -/
theorem exec_writes_reg {i : Instr} {x : Reg} {b : Byte} (h : exec i s = .next (s.setReg x b)) :
    ∃ t, exec i s = .next t ∧ t.reg x = b ∧ OnlyRegs [x] s t ∧ OnlyChanges [.regs] s t :=
  ⟨_, h, s.reg_setReg_same x b, onlyRegs_setReg, onlyChanges_setReg⟩

/-- A byte added to `I`, modulo 65536 (spec/42_arithmetic_logic.md R132, decision D9). -/
theorem add_byteWord_toNat (a : Word) (b : Byte) :
    (a + byteWord b).toNat = (a.toNat + b.toNat) % 65536 := by
  have hb : (byteWord b).toNat = b.toNat :=
    BitVec.toNat_setWidth_of_le (by decide)
  rw [BitVec.toNat_add, hb]

/-! ## Bytes stored from `I` upward (R113) -/

/-- The `k`-th byte stored is at `I + k`. -/
theorem readByte_store_effAddr (s : State) {bs : List Byte} (hl : bs.length ≤ 4096) {k : Nat}
    (hk : k < bs.length) : (s.writeBytes s.idx bs).readByte (s.effAddr k) = bs[k] :=
  s.readByte_writeBytes_inside s.idx bs hl k hk

/-- A digit of `LD B, Vx` at its address, the hundreds first (R119). -/
theorem readByte_bcdStore_toNat (s : State) (b : Byte) {k : Nat} (hk : k < 3) :
    ((s.writeBytes s.idx (bcdDigits b)).readByte (s.effAddr k)).toNat =
      b.toNat / 10 ^ (2 - k) % 10 := by
  rw [readByte_store_effAddr s (by simp) hk]
  exact bcdDigits_getElem_toNat b hk

/-- A register of `LD [I], Vx` at its address (R120). -/
theorem readByte_blockStore (s : State) {k x : Reg} (hk : k ≤ x) :
    (s.writeBytes s.idx (s.regBlock x)).readByte (s.effAddr k) = s.reg k := by
  have hlen := s.regBlock_length x
  rw [readByte_store_effAddr s (by omega) (by rw [hlen]; exact Nat.lt_succ_of_le hk),
    State.regBlock_getElem]

/-- `LD [I], Vx` leaves alone every byte that is not at `I + k` for a `k` up to `x` (R120). -/
theorem readByte_blockStore_outside (s : State) {x : Reg} {a : Word}
    (h : ∀ k : Reg, k ≤ x → maskAddr a ≠ maskAddr (s.effAddr k)) :
    (s.writeBytes s.idx (s.regBlock x)).readByte a = s.readByte a := by
  refine s.readByte_writeBytes_outside s.idx a _ fun k hk => ?_
  rw [s.regBlock_length] at hk
  exact h ⟨k, by omega⟩ (Nat.le_of_lt_succ hk)

end Sys2Proof.Machine

namespace Sys2Proof.Proofs

open Sys2Proof.Machine

/-- Settles O36: each handler sets `I`, to a value that wraps only in `ADD I, Vx`. -/
theorem indexIsLoadedAndAdded : Obligations.IndexIsLoadedAndAdded :=
  ⟨fun nnn _ => ⟨_, rfl, addrWord_toNat nnn, onlyChanges_setIdx⟩,
    fun x s => ⟨_, rfl, glyphAddr_toNat (s.reg x), onlyChanges_setIdx⟩,
    fun x s => ⟨_, rfl, add_byteWord_toNat s.idx (s.reg x), onlyChanges_setIdx⟩⟩

/-- Settles O37: the handler stores the three digits, of which the hundreds are below 10. -/
theorem bcdStoreWritesThreeDigits : Obligations.BcdStoreWritesThreeDigits := by
  intro x s
  have hdigit {k : Nat} (hk : k < 3) := readByte_bcdStore_toNat s (s.reg x) hk
  refine ⟨_, rfl, ?_, hdigit (k := 1) (by decide), ?_,
    fun a => s.readByte_writeBytes_outside s.idx a (bcdDigits (s.reg x)), onlyChanges_writeBytes⟩
  · have hb := (s.reg x).isLt
    rw [hdigit (by decide)]
    show (s.reg x).toNat / 100 % 10 = (s.reg x).toNat / 100
    omega
  · rw [hdigit (by decide)]
    show (s.reg x).toNat / 1 % 10 = (s.reg x).toNat % 10
    rw [Nat.div_one]

/-- Settles O38: the handler stores the register block. -/
theorem blockStoreWritesRegistersInOrder : Obligations.BlockStoreWritesRegistersInOrder :=
  fun _ s => ⟨_, rfl, fun _ => readByte_blockStore s, fun _ => readByte_blockStore_outside s,
    onlyChanges_writeBytes⟩

/-- Settles O39, by whether a register is in the block loaded. -/
theorem blockLoadReadsRegistersInOrder : Obligations.BlockLoadReadsRegistersInOrder :=
  fun x s => ⟨_, rfl, fun k hk => by rw [s.reg_loadBlock, if_pos hk],
    fun k hk => by rw [s.reg_loadBlock, if_neg (not_le_of_gt hk)], onlyChanges_loadBlock⟩

/-- Settles O32: the handler is a write of one register. -/
theorem loadImmediateReplacesTheRegister : Obligations.LoadImmediateReplacesTheRegister :=
  ⟨encodedAs_ldImm, fun _ _ _ => exec_writes_reg rfl⟩

/-- Settles O33: each handler is a write of one register. -/
theorem copiesIntoARegister : Obligations.CopiesIntoARegister :=
  ⟨fun _ _ _ => exec_writes_reg rfl, fun _ _ => exec_writes_reg rfl⟩

/-- Settles O34: each handler sets one timer. -/
theorem timerLoadsWriteTheTimerAlone : Obligations.TimerLoadsWriteTheTimerAlone :=
  fun _ _ => ⟨⟨_, rfl, rfl, onlyChanges_setDt⟩, ⟨_, rfl, rfl, onlyChanges_setSt⟩⟩

end Sys2Proof.Proofs
end

section
/-! PROOFS. Arithmetic and logic (spec/42_arithmetic_logic.md R130 to R140): each handler is a write of one
register, or of a result with its flag; what is left is the value written. -/

namespace Sys2Proof.Machine

variable {s : State}

/-! ## Writes of a result with its flag -/

/-- A handler that writes a result with its flag, from the two as numbers (spec/10_state.md R39 (c)). -/
theorem exec_writes_result {i : Instr} {x : Reg} {res : Byte} {flag : Bool} {r f : Nat}
    (h : exec i s = .next (s.writeResult x res flag)) (hr : res.toNat = r)
    (hf : (if flag then 1 else 0) = f) :
    ∃ t, exec i s = .next t ∧ ResultAndFlag x r f s t ∧ OnlyRegs [x, vf] s t ∧
      OnlyChanges [.regs] s t :=
  ⟨_, h, hr ▸ hf ▸ resultAndFlag_writeResult s x res flag, onlyRegs_writeResult,
    onlyChanges_writeResult⟩

/-- The carry as a number (R131). -/
theorem carryFlag_toNat (a b : Byte) :
    (if carryFlag a b then 1 else 0) = if a.toNat + b.toNat > 255 then 1 else 0 := by
  simp only [carryFlag, decide_eq_true_eq]

/-- The strict comparison as a number (R136, R137). -/
theorem greaterFlag_toNat (a b : Byte) :
    (if greaterFlag a b then 1 else 0) = if a.toNat > b.toNat then 1 else 0 := by
  simp only [greaterFlag, decide_eq_true_eq]

/-- A wrapping difference, in an order that never goes below 0 (R136, R137). -/
theorem sub_toNat (a b : Byte) : (a - b).toNat = (a.toNat + 256 - b.toNat) % 256 := by
  have := b.isLt
  rw [BitVec.toNat_sub]
  omega

/-! ## Shifts by one -/

/-- A right shift by one halves (R138). -/
theorem ushiftRight_one_toNat (a : Byte) : (a >>> 1).toNat = a.toNat / 2 := by
  rw [BitVec.toNat_ushiftRight, Nat.shiftRight_eq_div_pow, Nat.pow_one]

/-- A left shift by one doubles, modulo 256 (R139). -/
theorem shiftLeft_one_toNat (a : Byte) : (a <<< 1).toNat = a.toNat * 2 % 256 := by
  rw [BitVec.toNat_shiftLeft, Nat.shiftLeft_eq, Nat.pow_one]

/-- A bit of a byte, as a number. -/
theorem getLsbD_toNat (a : Byte) (i : Nat) :
    (if a.getLsbD i then 1 else 0) = a.toNat / 2 ^ i % 2 := by
  rw [← Nat.toNat_testBit, BitVec.testBit_toNat, Bool.toNat, Bool.cond_eq_ite]

/-- The bit a right shift shifts out, as a number (R138). -/
theorem lowBit_toNat (a : Byte) : (if lowBit a then 1 else 0) = a.toNat % 2 :=
  (getLsbD_toNat a 0).trans (by rw [Nat.pow_zero, Nat.div_one])

/-- The bit a left shift shifts out, as a number (R139): the quotient by 128 is already 0 or 1. -/
theorem highBit_toNat (a : Byte) : (if highBit a then 1 else 0) = a.toNat / 128 := by
  have hquotient : a.toNat / 2 ^ 7 < 2 := Nat.div_lt_of_lt_mul a.isLt
  exact (getLsbD_toNat a 7).trans (Nat.mod_eq_of_lt hquotient)

end Sys2Proof.Machine

namespace Sys2Proof.Proofs

open Sys2Proof.Machine

/-- Settles O42: the handler writes the sum with its carry. -/
theorem addRegistersSetsTheCarry : Obligations.AddRegistersSetsTheCarry :=
  fun x y s => exec_writes_result rfl (BitVec.toNat_add (s.reg x) (s.reg y))
    (carryFlag_toNat (s.reg x) (s.reg y))

/-- Settles O43: each handler writes the difference with the strict comparison. -/
theorem subtractionsSetTheStrictComparison : Obligations.SubtractionsSetTheStrictComparison :=
  fun x y s =>
    ⟨exec_writes_result rfl (sub_toNat (s.reg x) (s.reg y)) (greaterFlag_toNat (s.reg x) (s.reg y)),
      exec_writes_result rfl (sub_toNat (s.reg y) (s.reg x)) (greaterFlag_toNat (s.reg y) (s.reg x))⟩

/-- Settles O44: each handler writes the shifted byte with the bit shifted out. -/
theorem shiftsMoveOneBitIntoTheFlag : Obligations.ShiftsMoveOneBitIntoTheFlag :=
  fun x _ s =>
    ⟨exec_writes_result rfl (ushiftRight_one_toNat (s.reg x)) (lowBit_toNat (s.reg x)),
      exec_writes_result rfl (shiftLeft_one_toNat (s.reg x)) (highBit_toNat (s.reg x))⟩

/-- Settles O45: each handler writes one register, and a bit of it is read off the operation's own bits. -/
theorem bitwiseOperationsActOnEachBit : Obligations.BitwiseOperationsActOnEachBit := by
  intro x y s
  refine ⟨⟨_, rfl, fun b => ?_, onlyRegs_setReg, onlyChanges_setReg⟩,
    ⟨_, rfl, fun b => ?_, onlyRegs_setReg, onlyChanges_setReg⟩,
    ⟨_, rfl, fun b => ?_, onlyRegs_setReg, onlyChanges_setReg⟩⟩
  · rw [s.reg_setReg_same, BitVec.getLsbD_or, Bool.or_eq_true]
  · rw [s.reg_setReg_same, BitVec.getLsbD_and, Bool.and_eq_true]
  · rw [s.reg_setReg_same, BitVec.getLsbD_xor, bne_iff_ne]

/-- Settles O46: the handler takes the next draw, then writes one register. -/
theorem randomMasksAFreshDraw : Obligations.RandomMasksAFreshDraw := by
  intro x kk s
  refine ⟨_, rfl, fun b => ?_, rfl, ?_, ?_⟩
  · rw [State.reg_setReg_same, BitVec.getLsbD_and, Bool.and_eq_true]
    rfl
  · exact onlyRegs_setReg (s := s.consumeDraw)
  · exact (onlyChanges_consumeDraw.mono (by simp)).trans (onlyChanges_setReg.mono (by simp))

/-- Settles O41: the handler is a write of one register. -/
theorem addImmediateWrapsWithoutAFlag : Obligations.AddImmediateWrapsWithoutAFlag := by
  intro x kk s
  obtain ⟨t, hexec, hreg, hframe⟩ := exec_writes_reg (i := .addImm x kk) (s := s) rfl
  exact ⟨t, hexec, by rw [hreg, BitVec.toNat_add], hframe⟩

end Sys2Proof.Proofs
end

section
/-! PROOFS. The display (spec/43_display.md R150 to R155): what the host reads of a cell, where the edge
policies put a pixel, and a draw read backwards from its next state. -/

namespace Sys2Proof.Machine

variable {s t u : State} {x y : Reg} {n : Nibble}

/-! ## The display port (R155) -/

theorem displayPort_unlit {r : Fin 32} {c : Fin 64} (h : s.disp.lit ⟨c, r⟩ = false) :
    s.displayPort r c = 0x00 :=
  if_neg (by rw [h]; decide)

theorem displayPort_lit {r : Fin 32} {c : Fin 64} (h : s.disp.lit ⟨c, r⟩ = true) :
    s.displayPort r c = 0xFF :=
  if_pos h

theorem displayPort_unlit_or_lit (s : State) (r : Fin 32) (c : Fin 64) :
    s.displayPort r c = 0x00 ∨ s.displayPort r c = 0xFF := by
  cases h : s.disp.lit ⟨c, r⟩ with
  | false => exact .inl (displayPort_unlit h)
  | true => exact .inr (displayPort_lit h)

/-! ## Beyond the edge (R153) -/

theorem place_clip_outside {px py : Nat} (h : 63 < px ∨ 31 < py) : place .clip px py = none :=
  dif_neg (by omega)

/-! ## A draw from its next state (R151) -/

/-- Each cell after a draw: flipped under the sprite, as before elsewhere. -/
theorem exec_drw_lit (h : exec (.drw x y n) s = .next t) (p : Pixel) :
    t.disp.lit p = (s.disp.lit p ^^ decide (p ∈ s.sprite x y n)) := by
  rw [exec_drw] at h
  cases h
  exact draw_lit s x y n p

theorem exec_drw_lit_of_mem (h : exec (.drw x y n) s = .next t) {p : Pixel}
    (hp : p ∈ s.sprite x y n) : t.disp.lit p = !s.disp.lit p := by
  rw [exec_drw_lit h, decide_eq_true hp, Bool.xor_true]

/-- The cells a draw changes are the ones under its sprite. -/
theorem exec_drw_changes_iff (h : exec (.drw x y n) s = .next t) (p : Pixel) :
    t.disp.lit p ≠ s.disp.lit p ↔ p ∈ s.sprite x y n := by
  rw [exec_drw_lit h]
  cases s.disp.lit p <;> simp

/-- The flag of a draw: a cell under its sprite was lit. -/
theorem exec_drw_vf (h : exec (.drw x y n) s = .next t) :
    t.reg vf = flagByte ((s.sprite x y n).any s.disp.lit) := by
  rw [exec_drw] at h
  cases h
  rw [State.reg_setReg_same, draw_collision]

/-- A cell goes from lit to unlit exactly where the sprite meets a lit cell (R154 (b)). -/
theorem exec_drw_turns_off_iff (h : exec (.drw x y n) s = .next t) :
    (∃ p : Pixel, s.disp.lit p = true ∧ t.disp.lit p = false) ↔
      (s.sprite x y n).any s.disp.lit = true := by
  rw [List.any_eq_true]
  constructor
  · rintro ⟨p, hs, ht⟩
    have hne : t.disp.lit p ≠ s.disp.lit p := by rw [hs, ht]; decide
    exact ⟨p, (exec_drw_changes_iff h p).mp hne, hs⟩
  · rintro ⟨p, hp, hs⟩
    exact ⟨p, hs, by rw [exec_drw_lit_of_mem h hp, hs]; rfl⟩

theorem exec_drw_vf_eq_one (h : exec (.drw x y n) s = .next t) :
    t.reg vf = 1 ↔ ∃ p : Pixel, s.disp.lit p = true ∧ t.disp.lit p = false := by
  rw [exec_drw_vf h, flagByte_eq_one, exec_drw_turns_off_iff h]

theorem exec_drw_vf_eq_zero (h : exec (.drw x y n) s = .next t) :
    t.reg vf = 0 ↔ ¬ ∃ p : Pixel, s.disp.lit p = true ∧ t.disp.lit p = false := by
  rw [exec_drw_vf h, flagByte_eq_zero, exec_drw_turns_off_iff h, Bool.not_eq_true]

/-- A draw writes no register but `VF`. -/
theorem exec_drw_onlyRegs (h : exec (.drw x y n) s = .next t) : OnlyRegs [vf] s t := by
  rw [exec_drw] at h
  cases h
  exact onlyRegs_setReg (s := s.setDisp _)

/-! ## The same draw again (R154) -/

theorem readBytes_congr (h : ∀ a, t.readByte a = s.readByte a) (a : Word) (k : Nat) :
    t.readBytes a k = s.readBytes a k := by
  induction k generalizing a with
  | zero => rfl
  | succ k ih => rw [State.readBytes, State.readBytes, h, ih]

/-- A draw leaves its sprite as it was when it leaves its two coordinates: `I` and memory do not move
(decision D19). -/
theorem exec_drw_sprite (h : exec (.drw x y n) s = .next t) (hx : t.reg x = s.reg x)
    (hy : t.reg y = s.reg y) : t.sprite x y n = s.sprite x y n := by
  have hframe : OnlyChanges [.disp, .regs] s t := exec_onlyChanges h
  have hcfg : t.cfg = s.cfg := hframe .cfg (by decide)
  have hidx : t.idx = s.idx := hframe .idx (by decide)
  have hmem : ∀ a, t.readByte a = s.readByte a := hframe .mem (by decide)
  rw [State.sprite, State.sprite, hcfg, hx, hy, hidx, readBytes_congr hmem]

/-- A second draw of the same sprite flips every cell of it back. -/
theorem exec_drw_twice_lit (h : exec (.drw x y n) s = .next t) (h' : exec (.drw x y n) t = .next u)
    (hsprite : t.sprite x y n = s.sprite x y n) (p : Pixel) : u.disp.lit p = s.disp.lit p := by
  rw [exec_drw_lit h', exec_drw_lit h, hsprite, Bool.xor_assoc, Bool.xor_self, Bool.xor_false]

/-- The second flag: the first draw left a cell lit, so the cell was unlit before it. -/
theorem exec_drw_twice_vf_eq_one (h : exec (.drw x y n) s = .next t)
    (h' : exec (.drw x y n) t = .next u) (hsprite : t.sprite x y n = s.sprite x y n) :
    u.reg vf = 1 ↔ ∃ p ∈ s.sprite x y n, s.disp.lit p = false := by
  have hflip : ∀ p ∈ s.sprite x y n, (t.disp.lit p = true ↔ s.disp.lit p = false) := fun p hp => by
    rw [exec_drw_lit_of_mem h hp, Bool.not_eq_true']
  rw [exec_drw_vf h', flagByte_eq_one, hsprite, List.any_eq_true]
  exact exists_congr fun p => and_congr_right (hflip p)

end Sys2Proof.Machine

namespace Sys2Proof.Proofs

open Sys2Proof.Machine

/-- Settles O48: the cells a draw changes are those of its sprite, and its flag is whether one was lit. -/
theorem drawTogglesTheSpriteCells : Obligations.DrawTogglesTheSpriteCells := by
  intro x y n s
  have h := exec_drw s x y n
  exact ⟨_, h, fun p => (exec_drw_changes_iff h p).trans State.mem_sprite, exec_drw_vf_eq_one h,
    exec_drw_vf_eq_zero h, exec_drw_onlyRegs h, exec_onlyChanges h⟩

/-- Settles O49, by whether the pixel is inside the grid. -/
theorem edgePoliciesPlacePixels : Obligations.EdgePoliciesPlacePixels := by
  intro px py
  refine ⟨⟨_, rfl, rfl, rfl⟩, fun hx hy => ?_, place_clip_outside⟩
  have hcol : px < 64 := Nat.lt_succ_of_le hx
  have hrow : py < 32 := Nat.lt_succ_of_le hy
  rw [place_inside .clip hcol hrow, place_inside .wrap hcol hrow]

/-- Settles O50: both draws have the same sprite, each place of it once, so the second undoes the first. -/
theorem drawingTwiceRestoresTheGrid : Obligations.DrawingTwiceRestoresTheGrid := by
  intro x y n s t u h hx hy h'
  have hsprite := exec_drw_sprite h hx hy
  have hchanged : ∀ p, p ∈ s.sprite x y n ↔ t.disp.lit p ≠ s.disp.lit p :=
    fun p => (exec_drw_changes_iff h p).symm
  exact ⟨exec_drw_twice_lit h h' hsprite, exec_drw_twice_vf_eq_one h h' hsprite,
    exec_drw_vf_eq_one h, ⟨_, s.sprite_nodup x y n, hchanged, rfl⟩, displayPort_unlit_or_lit t⟩

/-- Settles O47: the handler replaces the grid by the blank one. -/
theorem clearUnlightsEveryCell : Obligations.ClearUnlightsEveryCell :=
  fun _ => ⟨_, rfl, fun _ _ => displayPort_unlit (Display.lit_blank _), onlyChanges_setDisp⟩

end Sys2Proof.Proofs
end

section
/-! PROOFS. The keypad (spec/44_keypad.md R160 to R164): the key a register names, the key wait in both its
states, and the one step that has no next state. -/

namespace Sys2Proof.Machine

variable {s : State} {x : Reg}

/-! ## The key a register names (R163) -/

/-- The named key has the low four bits of the register as its number, under `mask4` and up to 15. -/
theorem keyIndex_eq_some {p : KeyIndexPolicy} {b : Byte} {k : Fin 16} (hk : k.val = b.toNat % 16)
    (h : p = .mask4 ∨ b.toNat ≤ 15) : keyIndex p b = some k := by
  rcases h with rfl | h
  · rw [keyIndex_mask4, Option.some_inj, Fin.ext_iff, hk]
  · have hb : b.toNat < 16 := Nat.lt_succ_of_le h
    rw [keyIndex_small p hb, Option.some_inj, Fin.ext_iff, hk, Nat.mod_eq_of_lt hb]

/-- The skip on a key that is not pressed (R161). -/
theorem skipIf_not_pc_toNat (s : State) (c : Bool) :
    (s.skipIf (!c)).pc.toNat = (s.pc.toNat + if c then 0 else 2) % 65536 := by
  rw [skipIf_pc_toNat]
  cases c <;> rfl

/-! ## The key wait (R162, R164) -/

/-- The words of `LD Vx, K` (R162). -/
theorem encodedAs_ldVxK : EncodedAs 0xF0FF#16 0xF00A#16 (fun w => .ldVxK (fieldX w)) := by
  intro w h
  obtain ⟨hT, hKK⟩ := fields_of_maskTKK (k := 0xF#4) (b := 0x0A#8) h
  exact decode_eq_iff.mpr ⟨hT, hKK, rfl⟩

/-- The number of a key fits a register. -/
theorem keyByte_toNat (k : Fin 16) : (BitVec.ofNat 8 k).toNat = k.val :=
  Nat.mod_eq_of_lt (k.isLt.trans (by decide))

/-- The rewind by 2, modulo 65536 (decision D8). -/
theorem rewind_pc_toNat (s : State) : s.rewind.pc.toNat = (s.pc.toNat + 65536 - 2) % 65536 := by
  rw [s.rewind_pc, BitVec.toNat_sub, BitVec.toNat_ofNat]
  omega

/-- The rewind undoes the fetch advance. -/
theorem advance_rewind (s : State) : s.advance.rewind = s :=
  congrArg s.setPc (advance_rewind_pc s)

/-- A step in the wait is a tick and nothing else (R164). -/
theorem step_waiting (he : s.err = .none) (hdec : decode s.cfg s.fetchWord = .ldVxK x)
    (hnone : ∀ k, s.key k = false) : step s = .next s.tick := by
  have hx : exec (.ldVxK x) s.advance = .next s.advance.rewind :=
    exec_ldVxK_waiting (lowestKey_none.mpr hnone)
  rw [advance_rewind] at hx
  rw [step_of_exec he (hdec ▸ hx), State.endStep_ok he]

/-! ## The step without a next state (R163, spec/60_exceptions.md R190) -/

/-- The word at `pc` is a key skip of a register above 15. -/
def State.AtKeySkipAbove15 (s : State) : Prop :=
  ∃ x : Reg, 15 < (s.reg x).toNat ∧
    (decode s.cfg s.fetchWord = .skp x ∨ decode s.cfg s.fetchWord = .sknp x)

/-- A step has a next state, unless a running core refuses a key skip above 15 under
`KEY_INDEX_POLICY = fault`. -/
theorem step_next_or_refused (s : State) :
    (∃ t, step s = .next t) ∨
    (s.err = .none ∧ s.cfg.keyIndex = .fault ∧ step s = .refused .keyIndexAbove15 ∧
      s.AtKeySkipAbove15) := by
  by_cases he : s.err = .none
  · cases hx : exec (decode s.cfg s.fetchWord) s.advance with
    | next u => exact .inl ⟨_, step_of_exec he hx⟩
    | fault f => exact absurd hx (exec_not_fault _ _ f)
    | refused r =>
      obtain ⟨rfl, hfault, hskip⟩ := exec_refused hx
      exact .inr ⟨he, hfault, by rw [step_running he, hx], hskip⟩
  · exact .inl ⟨s, step_halted he⟩

end Sys2Proof.Machine

namespace Sys2Proof.Proofs

open Sys2Proof.Machine

/-- Settles O8: the one refusal needs the policy `fault`. -/
theorem stepAlwaysCompletes : Obligations.StepAlwaysCompletes := by
  intro s hmask
  rcases step_next_or_refused s with hnext | ⟨-, hfault, -⟩
  · exact hnext
  · rw [hmask] at hfault; cases hfault

/-- Settles O9: a step has a next state or is the one refusal, and never both. -/
theorem onlyAKeyIndexAbove15IsRefused : Obligations.OnlyAKeyIndexAbove15IsRefused := by
  intro s
  refine ⟨(step_next_or_refused s).resolve_left, ?_⟩
  rintro ⟨-, -, hrefused, -⟩ ⟨t, hnext⟩
  rw [hrefused] at hnext; cases hnext

/-- Settles O51: both handlers skip on the level of the key the register names. -/
theorem keySkipsTestTheNamedKey : Obligations.KeySkipsTestTheNamedKey := by
  intro x s k hk hpolicy
  have hi : keyIndex s.cfg.keyIndex (s.reg x) = some k := keyIndex_eq_some hk hpolicy
  exact ⟨⟨_, exec_skp hi, onlyChanges_skipIf, skipIf_pc_toNat s (s.key k)⟩,
    ⟨_, exec_sknp hi, onlyChanges_skipIf, skipIf_not_pc_toNat s (s.key k)⟩⟩

/-- Settles O53, by whether a key is pressed. -/
theorem keyWaitTakesTheLowestKeyOrRewinds : Obligations.KeyWaitTakesTheLowestKeyOrRewinds := by
  refine ⟨encodedAs_ldVxK, fun x s => ⟨fun k hk hlow => ?_, fun hnone => ?_⟩⟩
  · obtain ⟨t, ht, hreg, hframe⟩ :=
      exec_writes_reg (exec_ldVxK_pressed (x := x) (lowestKey_some.mpr ⟨hk, hlow⟩))
    exact ⟨t, ht, by rw [hreg, keyByte_toNat], hframe⟩
  · exact ⟨_, exec_ldVxK_waiting (lowestKey_none.mpr hnone), rewind_pc_toNat s, onlyChanges_rewind⟩

/-- Settles O54: the step is a tick, after which the same word is fetched. -/
theorem waitingStepOnlyTicks : Obligations.WaitingStepOnlyTicks :=
  fun s _ he hdec hnone => ⟨s.tick, step_waiting he hdec hnone, onlyChanges_tick,
    tickTimer_toNat s.dt, tickTimer_toNat s.st, hdec⟩

/-- Settles O52: the policy `fault` gives such a register no key index. -/
theorem keySkipsRefuseAboveFifteenUnderFault : Obligations.KeySkipsRefuseAboveFifteenUnderFault := by
  intro x s hfault habove
  have hi : keyIndex s.cfg.keyIndex (s.reg x) = none := keyIndex_none.mpr ⟨hfault, habove⟩
  exact ⟨exec_skp_refused hi, exec_sknp_refused hi⟩

end Sys2Proof.Proofs
end

section
/-! PROOFS. The no-op fallback (spec/45_noop_fallback.md R170), as a handler and as a step. -/

namespace Sys2Proof.Machine

variable {s : State}

/-- The handler of the fallback leaves the state as it is. -/
theorem exec_nop (raw : Word) (s : State) : exec (.nop raw) s = .next s := rfl

/-- A step of the fallback is the fetch advance and the tick, under any parameters. -/
theorem step_nop {raw : Word} (he : s.err = .none) (hdec : decode s.cfg s.fetchWord = .nop raw) :
    step s = .next s.advance.tick := by
  have hx : exec (decode s.cfg s.fetchWord) s.advance = .next s.advance := by rw [hdec, exec_nop]
  rw [step_of_exec he hx, State.endStep_ok (s.advance_err.trans he)]

end Sys2Proof.Machine

namespace Sys2Proof.Proofs

open Sys2Proof.Machine

/-- Settles O55: under the default parameters a word that meets no row decodes to the fallback, whose step
is the advance and the tick. -/
theorem fallbackOnlyAdvancesAndTicks : Obligations.FallbackOnlyAdvancesAndTicks := by
  refine ⟨exec_nop, fun s he hcfg hnone => ?_⟩
  have hdec : decode s.cfg s.fetchWord = .nop s.fetchWord := by
    rw [hcfg]
    exact decode_nop_iff_selects_none.mp hnone
  exact ⟨_, step_nop he hdec, pc_add_toNat s.pc 2, tickTimer_toNat s.dt, tickTimer_toNat s.st,
    onlyChanges_step_around (.refl [] s.advance)⟩

end Sys2Proof.Proofs
end

section
/-! PROOFS. The errors (spec/60_exceptions.md R181 to R188): which handler raises one, the step around it,
and the core halted until a reset succeeds. -/

namespace Sys2Proof.Machine

variable {i : Instr} {s t : State}

/-- A handler that gives a next state raises `CallStackFull` on its condition (R182), raises
`CallStackEmpty` on its condition (R183), or meets neither condition and leaves `ERR` alone (R187). -/
theorem exec_raises_cases (h : exec i s = .next t) :
    (t.err = .callStackFull ∧ (∃ nnn, i = .call nnn) ∧ s.stk.length = 32) ∨
    (t.err = .callStackEmpty ∧ i = .ret ∧ s.stk = []) ∨
    (t.err = s.err ∧ ¬((∃ nnn, i = .call nnn) ∧ s.stk.length = 32) ∧ ¬(i = .ret ∧ s.stk = [])) := by
  by_cases hm : .err ∈ partsOf i
  · rcases err_mem_partsOf.mp hm with rfl | ⟨nnn, rfl⟩
    · rcases exec_ret_next h with ⟨a, rest, hstk, rfl⟩ | ⟨hstk, rfl⟩
      · exact .inr (.inr ⟨rfl, by simp, by simp [hstk]⟩)
      · exact .inr (.inl ⟨rfl, rfl, hstk⟩)
    · rcases exec_call_next h with ⟨hroom, rfl⟩ | ⟨hfull, rfl⟩
      · exact .inr (.inr ⟨rfl, by simp [hroom], by simp⟩)
      · exact .inl ⟨rfl, ⟨nnn, rfl⟩, hfull⟩
  · have herr : t.err = s.err := exec_onlyChanges h .err hm
    exact .inr (.inr ⟨herr, fun hc => hm (err_mem_partsOf.mpr (.inr hc.1)),
      fun hr => hm (err_mem_partsOf.mpr (.inl hr.1))⟩)

/-- A step whose handler raises an error sets `ERR` in the state before it and halts the core
(R185, R186). -/
theorem step_of_raising_handler {e : ErrorCode} (he : s.err = .none) (hne : e ≠ .none)
    (hx : exec (decode s.cfg s.fetchWord) s.advance = .next (s.advance.raise e)) :
    ∃ t, step s = .next t ∧ t.err = e ∧ t.errPort = e.code ∧
      OnlyChanges [.err, .pc, .dt, .st] s t ∧ step t = .next t := by
  have hstep : step s = .next (s.raise e) := by
    rw [step_of_exec he hx, State.endStep_error (by simpa using hne), State.raise_err]
  exact ⟨s.raise e, hstep, rfl, rfl, onlyChanges_raise.mono (by simp), step_halted hne⟩

/-- A reset with an image that fits clears `ERR` (decision D13). -/
theorem resetWithImage_fits_err (s : State) {image : List Byte} (h : image.length ≤ 3584) :
    (s.resetWithImage image).err = .none := by
  rw [s.resetWithImage_fits h]; rfl

/-- A reset with an image that is too long sets `ERR` to `RomLoad` (R181). -/
theorem resetWithImage_tooLong_err (s : State) {image : List Byte} (h : 3584 < image.length) :
    (s.resetWithImage image).err = .romLoad := by
  rw [s.resetWithImage_tooLong h, s.failedReset_err]

end Sys2Proof.Machine

namespace Sys2Proof.Proofs

open Sys2Proof.Machine

/-- Settles O13: of the three things a handler can do to `ERR`, each names its code and its condition, and
the third leaves `None`. -/
theorem errorsComeFromCallAndReturnAlone : Obligations.ErrorsComeFromCallAndReturnAlone := by
  intro i s t he h
  rcases exec_raises_cases h with ⟨ht, hcall, hfull⟩ | ⟨ht, rfl, hempty⟩ | ⟨ht, hcall, hret⟩
  · obtain ⟨nnn, rfl⟩ := hcall
    simp [ht, hfull]
  · simp [ht, hempty]
  · rw [ht, he]
    exact ⟨iff_of_false nofun hcall, iff_of_false nofun hret, nofun, nofun⟩

/-- Settles O14: the handler finds the stack as it was before the fetch advance, and raises. -/
theorem faultingStepSetsErrAndHalts : Obligations.FaultingStepSetsErrAndHalts := by
  refine fun s he => ⟨fun ⟨nnn, hdec⟩ hfull => ?_, fun hdec hempty => ?_⟩
  · exact step_of_raising_handler he nofun (hdec ▸ exec_call_full (s := s.advance) hfull)
  · exact step_of_raising_handler he nofun (hdec ▸ exec_ret_nil (s := s.advance) hempty)

/-- Settles O12: a key update leaves `ERR`, so the core it leaves is halted as before. -/
theorem haltedCoreDoesNothingUntilReset : Obligations.HaltedCoreDoesNothingUntilReset :=
  fun s k _ he => ⟨step_halted he, onlyChanges_setKeys, step_halted ((s.setKeys_err k).symm ▸ he),
    resetWithImage_fits_err s⟩

/-- Settles O26: the failed reset leaves `ERR` at `RomLoad`, which halts the core. -/
theorem resetWithTooLongAnImageFails : Obligations.ResetWithTooLongAnImageFails := by
  intro s image h
  have herr : (s.resetWithImage image).err = .romLoad := resetWithImage_tooLong_err s h
  refine ⟨herr, congrArg ErrorCode.code herr, step_halted ?_, fun image' => resetWithImage_fits_err _⟩
  rw [herr]; nofun

end Sys2Proof.Proofs
end

section
/-! PROOFS. A timer load and the read after it (spec/70_reset_and_hazards.md R216): the two steps. -/

namespace Sys2Proof.Machine

variable {s : State}

/-- A step of `LD DT, Vx` loads the delay timer, which its own tick then lowers (R115, decision D20). -/
theorem step_ldDTVx {x : Reg} (he : s.err = .none) (hdec : decode s.cfg s.fetchWord = .ldDTVx x) :
    step s = .next (s.advance.setDt (s.reg x)).tick := by
  have hx : exec (decode s.cfg s.fetchWord) s.advance = .next (s.advance.setDt (s.reg x)) := by
    rw [hdec]; rfl
  rw [step_of_exec he hx, State.endStep_ok (by simpa using he)]

/-- A step of `LD Vx, DT` reads the delay timer as it is before the tick (R114). -/
theorem step_ldVxDT {x : Reg} (he : s.err = .none) (hdec : decode s.cfg s.fetchWord = .ldVxDT x) :
    step s = .next (s.advance.setReg x s.dt).tick := by
  have hx : exec (decode s.cfg s.fetchWord) s.advance = .next (s.advance.setReg x s.dt) := by
    rw [hdec]; rfl
  rw [step_of_exec he hx, State.endStep_ok (by simpa using he)]

end Sys2Proof.Machine

namespace Sys2Proof.Proofs

open Sys2Proof.Machine

/-- Settles O35: the read is of the timer after one tick, and its own step is the second. -/
theorem timerLoadedThenReadIsOneLess : Obligations.TimerLoadedThenReadIsOneLess := by
  intro s t u x y he hload ht hread hu
  cases (step_ldDTVx he hload).symm.trans ht
  have he' : (s.advance.setDt (s.reg x)).tick.err = .none := he
  cases (step_ldVxDT he' hread).symm.trans hu
  constructor
  · rw [State.reg_tick, State.reg_setReg_same, State.tick_dt, State.setDt_dt, tickTimer_toNat]
  · rw [State.tick_dt, tickTimer_toNat, State.setReg_dt, State.advance_dt, State.tick_dt,
      State.setDt_dt, tickTimer_toNat, Nat.sub_sub]

end Sys2Proof.Proofs
end
